-- ==== Sys2Proof/Word.lean ====
section
/-! DEFINITION. The word and the register names (00_scope.md R5, R6; 10_state.md R20). -/

namespace Sys2Proof

/-- A 16-bit value: a register, PC, PSR, a memory word, an address, an instruction (00_scope.md R5 `XLEN`). -/
abbrev Word := BitVec 16

/-- The eight general registers `R0` to `R7` (10_state.md R20): every 3-bit field value names one, none is
hard-wired, there is one bank. -/
inductive Reg where
  | r0 | r1 | r2 | r3 | r4 | r5 | r6 | r7
deriving DecidableEq, Repr

end Sys2Proof
end

