-- ==== Sys2Proof/Config.lean ====
section
/-! DEFINITION. The configuration of the block (00_scope.md R5): the instruction classes and the operations a class chooses
among, and `Parameters`, one field for each parameter of R5 whose value is a decision. The values the spec gives them are
`Config.standard`, in Machine/Params.lean with the literal parameters (`RESET_PC`, `HALT_PC`, ...). -/

namespace Sys2Proof

/-- The thirteen instruction classes (30_encoding.md R81). -/
inductive OpClass where
  | branch | arithmetic | comparative | jsr | logical | load | store | rti | const | shiftMod | jump | hiConst | trap
deriving DecidableEq, Repr

/-- What the Branch sub-op selects: the set of flags tested, or never (30_encoding.md R95). -/
inductive BranchOp where
  | never | p | z | zp | n | np | nz | nzp
deriving DecidableEq, Repr

/-- The register operations of the Arithmetic class (30_encoding.md R91). -/
inductive ArithOp where
  | add | mul | sub | div
deriving DecidableEq, Repr

/-- The register operations of the Logical class (30_encoding.md R92). -/
inductive LogicOp where
  | and | not | or | xor
deriving DecidableEq, Repr

/-- The four comparisons (30_encoding.md R93). -/
inductive CmpOp where
  | cmp | cmpu | cmpi | cmpiu
deriving DecidableEq, Repr

/-- The operations of the Shift/Mod class (30_encoding.md R94). -/
inductive ShiftOp where
  | sll | sra | srl | mod
deriving DecidableEq, Repr

/-- `MEM_WORDS` (00_scope.md R5): the addresses are 0x0000 to 0xFFFF. -/
def Config.memWords : Nat := 65536

/-- The configuration: every parameter that 00_scope.md R5 marks as a decision and asks a model to take as a configuration
field. `decodeUnder`, `encodeUnder`, `execUnder` and `stepUnder` take any; `decode`, `encode`, `exec` and `step` are these at
the values of R5 (`Config.standard`). It is fixed for a machine and no part of its state (log 25). -/
structure Parameters where
  /-- `OPCODE_MAP`, the 4-bit value of each class (30_encoding.md R90; D1) -/
  opcodeOf : OpClass → BitVec 4
  /-- `BR_SUBOP`, on `insn[11:9]` (30_encoding.md R95; D6) -/
  branchSubop : BranchOp → BitVec 3
  /-- `ARITH_SUBOP`, on `insn[4:3]`, `insn[5]` being 0 (30_encoding.md R91, R82; D2) -/
  arithSubop : ArithOp → BitVec 2
  /-- `LOGIC_SUBOP`, on `insn[4:3]`, `insn[5]` being 0 (30_encoding.md R92, R82; D3) -/
  logicSubop : LogicOp → BitVec 2
  /-- `CMP_SUBOP`, on `insn[8:7]` (30_encoding.md R93; D4) -/
  cmpSubop : CmpOp → BitVec 2
  /-- `SHIFT_SUBOP`, on `insn[5:4]` (30_encoding.md R94; D5) -/
  shiftSubop : ShiftOp → BitVec 2
  /-- `NZP_ORDER`: `PSR[2:0]` when N alone is set (10_state.md R29; D7) -/
  codeN : BitVec 3
  /-- `NZP_ORDER`: `PSR[2:0]` when Z alone is set (10_state.md R29; D7) -/
  codeZ : BitVec 3
  /-- `NZP_ORDER`: `PSR[2:0]` when P alone is set (10_state.md R29; D7) -/
  codeP : BitVec 3
  /-- `DIV_FN`, of dividend and divisor (41_arithmetic.md R154; D8, D9) -/
  divFn : Word → Word → Word
  /-- `MOD_FN`, of dividend and divisor (46_shift_mod.md R204; D8, D9) -/
  modFn : Word → Word → Word
  /-- `JSR_IMM_SIGNED` (45_jump_jsr.md R193; D11) -/
  jsrImmSigned : Bool
  /-- `JSRR_LINK_FIRST` (45_jump_jsr.md R192; D12) -/
  jsrrLinkFirst : Bool

/-- The configuration is a possible one: no two classes share an opcode, no two operations of a class a sub-op number
(30_encoding.md R90 to R95), and each of N, Z, P has one of bits 2, 1, 0 to itself (10_state.md R29). The functions and the two
flags may be any. -/
structure Parameters.Proper (c : Parameters) : Prop where
  opcodes : Function.Injective c.opcodeOf
  branchSubops : Function.Injective c.branchSubop
  arithSubops : Function.Injective c.arithSubop
  logicSubops : Function.Injective c.logicSubop
  cmpSubops : Function.Injective c.cmpSubop
  shiftSubops : Function.Injective c.shiftSubop
  codes : [c.codeN, c.codeZ, c.codeP].Perm [0b100, 0b010, 0b001]

end Sys2Proof
end

