-- ==== Sys2Proof/Machine/Params.lean ====
section
/-! DEFINITION. The values of the block's parameters (00_scope.md R5), each in one definition, and `Config.standard`, the
configuration made of those that are decisions of 92_eei_decisions.md, each naming its own. UNVERIFIED: the document's
literals were not audited (70_reset_and_hazards.md R296, log 16). -/

namespace Sys2Proof

/-- `LINK_REG` (00_scope.md R5, 10_state.md R22). -/
def Config.linkReg : Reg := .r7

/-- `RESET_PC` (00_scope.md R5, 10_state.md R38). -/
def Config.resetPc : Word := 0x8200

/-- `RESET_PSR` (00_scope.md R5, 10_state.md R38): supervisor, Z. -/
def Config.resetPsr : Word := 0x8002

/-- `HALT_PC`, the halt sentinel (00_scope.md R5, 40_sequencer.md R132). -/
def Config.haltPc : Word := 0x80FF

/-- `TRAP_BASE` (00_scope.md R5, 49_trap_rti.md R231). -/
def Config.trapBase : Word := 0x8000

/-- `USER_TOP`, the highest address of the lower half (00_scope.md R5, 20_memory.md R58). -/
def Config.userTop : Word := 0x7FFF

/-- `USER_OPEN_TOP`, the one upper-half address user mode may reach (00_scope.md R5, 20_memory.md R59). -/
def Config.userOpenTop : Word := 0xFFFF

/-- The mask of `PRIV_BIT`, bit 15 (00_scope.md R5, 10_state.md R27). -/
def Config.privMask : Word := 0x8000

/-- `NZP_ORDER`: the code of N is PSR bit 2 (10_state.md R29; D7, log 2). -/
def Config.codeN : BitVec 3 := 0b100

/-- `NZP_ORDER`: the code of Z is PSR bit 1 (10_state.md R29; D7, log 2). -/
def Config.codeZ : BitVec 3 := 0b010

/-- `NZP_ORDER`: the code of P is PSR bit 0 (10_state.md R29; D7, log 2). -/
def Config.codeP : BitVec 3 := 0b001

/-- `DIV_FN` (00_scope.md R5, 41_arithmetic.md R154): the unsigned quotient, and 0x0000 for a zero divisor. UNVERIFIED: D8,
D9 (log 3); unsafe where an operand is 0x8000 or more or the divisor is zero. -/
def Config.divFn (a b : Word) : Word :=
  if b.toNat = 0 then 0 else BitVec.ofNat 16 (a.toNat / b.toNat)

/-- `MOD_FN` (00_scope.md R5, 46_shift_mod.md R204): the unsigned remainder, and 0x0000 for a zero divisor. UNVERIFIED: D8,
D9 (log 3); unsafe where an operand is 0x8000 or more or the divisor is zero. -/
def Config.modFn (a b : Word) : Word :=
  if b.toNat = 0 then 0 else BitVec.ofNat 16 (a.toNat % b.toNat)

/-- `JSR_IMM_SIGNED` (00_scope.md R5, 45_jump_jsr.md R193). UNVERIFIED: D11 (log 4). -/
def Config.jsrImmSigned : Bool := false

/-- `JSRR_LINK_FIRST` (00_scope.md R5, 45_jump_jsr.md R192). UNVERIFIED: D12 (log 5). -/
def Config.jsrrLinkFirst : Bool := true

/-- What a word of memory that nothing has written reads as: the reset contents (10_state.md R38). -/
def Config.memoryReset : Word := 0x0000

/-! ## Opcode map and sub-op numbers

UNVERIFIED: the source document gives no opcode number and almost no sub-op number; these are the spec's decisions D1 to D6
(log 1). Unsafe if another map is the hardware's. -/

/-- `OPCODE_MAP` (30_encoding.md R90; D1, log 1). -/
def Config.opcodeOf : OpClass → BitVec 4
  | .branch => 0x0 | .arithmetic => 0x1 | .comparative => 0x2 | .jsr => 0x4 | .logical => 0x5 | .load => 0x6
  | .store => 0x7 | .rti => 0x8 | .const => 0x9 | .shiftMod => 0xA | .jump => 0xC | .hiConst => 0xD | .trap => 0xF

/-- `BR_SUBOP` (30_encoding.md R95; D6, log 1): bit 2 tests N, bit 1 tests Z, bit 0 tests P. -/
def Config.branchSubop : BranchOp → BitVec 3
  | .never => 0 | .p => 1 | .z => 2 | .zp => 3 | .n => 4 | .np => 5 | .nz => 6 | .nzp => 7

/-- `ARITH_SUBOP` (30_encoding.md R91; D2, log 1). -/
def Config.arithSubop : ArithOp → BitVec 2
  | .add => 0 | .mul => 1 | .sub => 2 | .div => 3

/-- `LOGIC_SUBOP` (30_encoding.md R92; D3, log 1). -/
def Config.logicSubop : LogicOp → BitVec 2
  | .and => 0 | .not => 1 | .or => 2 | .xor => 3

/-- `CMP_SUBOP` (30_encoding.md R93; D4, log 1). -/
def Config.cmpSubop : CmpOp → BitVec 2
  | .cmp => 0 | .cmpu => 1 | .cmpi => 2 | .cmpiu => 3

/-- `SHIFT_SUBOP` (30_encoding.md R94; D5, log 1): not the order of the document's list (C6). -/
def Config.shiftSubop : ShiftOp → BitVec 2
  | .sll => 0 | .sra => 1 | .srl => 2 | .mod => 3

/-- The configuration of 00_scope.md R5: every decided parameter at the value the spec gives it. -/
def Config.standard : Parameters where
  opcodeOf := Config.opcodeOf
  branchSubop := Config.branchSubop
  arithSubop := Config.arithSubop
  logicSubop := Config.logicSubop
  cmpSubop := Config.cmpSubop
  shiftSubop := Config.shiftSubop
  codeN := Config.codeN
  codeZ := Config.codeZ
  codeP := Config.codeP
  divFn := Config.divFn
  modFn := Config.modFn
  jsrImmSigned := Config.jsrImmSigned
  jsrrLinkFirst := Config.jsrrLinkFirst

end Sys2Proof
end

