-- ==== Sys2Proof/Syntax.lean ====
section
/-! DEFINITION. The instructions: one constructor for each row of spec/opcode_table.json (30_encoding.md R97, R98), with
the operands `Decode` gives it (30_encoding.md R103). -/

namespace Sys2Proof

/-- An instruction with its operands. A signed immediate, and CMPIU's immediate, is the 16-bit operand value of
30_encoding.md R85 (`sext_N` or `zext_7` of the field); JSR, the shifts, HICONST and TRAP keep the field as it stands, as R103
does. Bits that no field uses (R83) are not part of an instruction, except for the three unassigned opcodes, whose
fatal condition reports the whole word (60_exceptions.md R240). -/
inductive Instr where
  /-- NOP, R181. -/
  | nop
  /-- BRp imm9, R182. -/
  | brp (imm : Word)
  /-- BRz imm9, R183. -/
  | brz (imm : Word)
  /-- BRzp imm9, R184. -/
  | brzp (imm : Word)
  /-- BRn imm9, R185. -/
  | brn (imm : Word)
  /-- BRnp imm9, R186. -/
  | brnp (imm : Word)
  /-- BRnz imm9, R187. -/
  | brnz (imm : Word)
  /-- BRnzp imm9, R188. -/
  | brnzp (imm : Word)
  /-- ADD Rd,Rs,Rt, R151. -/
  | add (rd rs rt : Reg)
  /-- MUL Rd,Rs,Rt, R152. -/
  | mul (rd rs rt : Reg)
  /-- SUB Rd,Rs,Rt, R153. -/
  | sub (rd rs rt : Reg)
  /-- DIV Rd,Rs,Rt, R154. -/
  | div (rd rs rt : Reg)
  /-- ADDI Rd,Rs,imm5, R155. -/
  | addi (rd rs : Reg) (imm : Word)
  /-- CMP Rs,Rt, R161. -/
  | cmp (rs rt : Reg)
  /-- CMPU Rs,Rt, R162. -/
  | cmpu (rs rt : Reg)
  /-- CMPI Rs,imm7, R163. -/
  | cmpi (rs : Reg) (imm : Word)
  /-- CMPIU Rs,uimm7, R164. -/
  | cmpiu (rs : Reg) (imm : Word)
  /-- JSRR Rs, R192. -/
  | jsrr (rs : Reg)
  /-- JSR uimm11, R193. -/
  | jsr (imm : BitVec 11)
  /-- AND Rd,Rs,Rt, R171. -/
  | and (rd rs rt : Reg)
  /-- NOT Rd,Rs, R172. -/
  | not (rd rs : Reg)
  /-- OR Rd,Rs,Rt, R173. -/
  | or (rd rs rt : Reg)
  /-- XOR Rd,Rs,Rt, R174. -/
  | xor (rd rs rt : Reg)
  /-- ANDI Rd,Rs,imm5, R175. -/
  | andi (rd rs : Reg) (imm : Word)
  /-- LDR Rd,Rs,imm6, R211. -/
  | ldr (rd rs : Reg) (imm : Word)
  /-- STR Rt,Rs,imm6, R212. -/
  | str (rt rs : Reg) (imm : Word)
  /-- RTI, R233. -/
  | rti
  /-- CONST Rd,imm9, R221. -/
  | const (rd : Reg) (imm : Word)
  /-- SLL Rd,Rs,uimm4, R201. -/
  | sll (rd rs : Reg) (amt : BitVec 4)
  /-- SRA Rd,Rs,uimm4, R202. -/
  | sra (rd rs : Reg) (amt : BitVec 4)
  /-- SRL Rd,Rs,uimm4, R203. -/
  | srl (rd rs : Reg) (amt : BitVec 4)
  /-- MOD Rd,Rs,Rt, R204. -/
  | mod (rd rs rt : Reg)
  /-- JMPR Rs, R190. -/
  | jmpr (rs : Reg)
  /-- JMP imm11, R191. -/
  | jmp (imm : Word)
  /-- HICONST Rd,uimm8, R222. -/
  | hiconst (rd : Reg) (imm : BitVec 8)
  /-- TRAP uimm8, R231. -/
  | trap (imm : BitVec 8)
  /-- A word 0x3xxx: no class has this opcode (R98, R243). -/
  | illegal3 (low : BitVec 12)
  /-- A word 0xBxxx: no class has this opcode (R98, R243). -/
  | illegalB (low : BitVec 12)
  /-- A word 0xExxx: no class has this opcode (R98, R243). -/
  | illegalE (low : BitVec 12)
deriving DecidableEq, Repr

end Sys2Proof
end

