-- ==== Sys2Proof/WellFormed.lean ====
section
/-! DEFINITION. Which instructions an encoding admits (30_encoding.md R84, R85, R104): a signed operand in the range of
its field, CMPIU's operand in 0 to 127. Every other operand type holds exactly the values of its field. -/

namespace Sys2Proof

/-- `v` is the sign extension of an `n`-bit field: `s(v)` lies in `-2^(n-1)` to `2^(n-1) - 1` (30_encoding.md R84). -/
def fitsSigned (n : Nat) (v : Word) : Bool :=
  decide (-(2 ^ (n - 1) : Int) ≤ v.toInt) && decide (v.toInt < (2 ^ (n - 1) : Int))

/-- `v` is the zero extension of an `n`-bit field (30_encoding.md R85). -/
def fitsUnsigned (n : Nat) (v : Word) : Bool :=
  decide (v.toNat < 2 ^ n)

/-- The instruction can be encoded (30_encoding.md R104). -/
def WellFormed : Instr → Bool
  | .nop => true
  | .brp imm => fitsSigned 9 imm
  | .brz imm => fitsSigned 9 imm
  | .brzp imm => fitsSigned 9 imm
  | .brn imm => fitsSigned 9 imm
  | .brnp imm => fitsSigned 9 imm
  | .brnz imm => fitsSigned 9 imm
  | .brnzp imm => fitsSigned 9 imm
  | .add _ _ _ => true
  | .mul _ _ _ => true
  | .sub _ _ _ => true
  | .div _ _ _ => true
  | .addi _ _ imm => fitsSigned 5 imm
  | .cmp _ _ => true
  | .cmpu _ _ => true
  | .cmpi _ imm => fitsSigned 7 imm
  | .cmpiu _ imm => fitsUnsigned 7 imm
  | .jsrr _ => true
  | .jsr _ => true
  | .and _ _ _ => true
  | .not _ _ => true
  | .or _ _ _ => true
  | .xor _ _ _ => true
  | .andi _ _ imm => fitsSigned 5 imm
  | .ldr _ _ imm => fitsSigned 6 imm
  | .str _ _ imm => fitsSigned 6 imm
  | .rti => true
  | .const _ imm => fitsSigned 9 imm
  | .sll _ _ _ => true
  | .sra _ _ _ => true
  | .srl _ _ _ => true
  | .mod _ _ _ => true
  | .jmpr _ => true
  | .jmp imm => fitsSigned 11 imm
  | .hiconst _ _ => true
  | .trap _ => true
  | .illegal3 _ => true
  | .illegalB _ => true
  | .illegalE _ => true

end Sys2Proof
end

