-- ==== Sys2Proof/Decode.lean ====
section
/-! DEFINITION. The encoding, under any configuration (00_scope.md R5): the decoder's tables, which are the configuration's
read backwards (30_encoding.md R90 to R96), the fields (R81), the immediates (R84, R85), the decoder (R103), total on all 65536
words, and after it the encoder (R104). `decode` and `encode` are these under `Config.standard`. -/

namespace Sys2Proof

/-! ## Register numbers -/

/-- The register a 3-bit field names (10_state.md R20). -/
def Reg.ofBits (b : BitVec 3) : Reg :=
  match b.toNat with
  | 0 => .r0 | 1 => .r1 | 2 => .r2 | 3 => .r3 | 4 => .r4 | 5 => .r5 | 6 => .r6 | _ => .r7

/-- The 3-bit number of a register (10_state.md R20). -/
def Reg.toBits : Reg → BitVec 3
  | .r0 => 0 | .r1 => 1 | .r2 => 2 | .r3 => 3 | .r4 => 4 | .r5 => 5 | .r6 => 6 | .r7 => 7

/-! ## Opcode map and sub-op numbers, read by the decoder -/

/-- The thirteen classes (30_encoding.md R81). -/
def OpClass.all : List OpClass :=
  [.branch, .arithmetic, .comparative, .jsr, .logical, .load, .store, .rti, .const, .shiftMod, .jump, .hiConst, .trap]

/-- The class that has a 4-bit opcode, none where no class has it (30_encoding.md R90, R98). -/
def Parameters.classOf (c : Parameters) (op : BitVec 4) : Option OpClass :=
  OpClass.all.find? fun k => c.opcodeOf k == op

/-- The opcodes that no class has, in rising order (30_encoding.md R98): three of them in a proper configuration; 0x3, 0xB
and 0xE in the standard one (D19, log 12). -/
def Parameters.unassigned (c : Parameters) : List (BitVec 4) :=
  ((List.range 16).map (BitVec.ofNat 4)).filter fun op => (c.classOf op).isNone

/-- The opcode of the words ILLEGAL_3 stands for: the first that no class has (log 25). -/
def Parameters.unassigned1 (c : Parameters) : BitVec 4 := c.unassigned.getD 0 0

/-- The opcode of the words ILLEGAL_B stands for: the second that no class has (log 25). -/
def Parameters.unassigned2 (c : Parameters) : BitVec 4 := c.unassigned.getD 1 0

/-- The opcode of the words ILLEGAL_E stands for: the third that no class has (log 25). -/
def Parameters.unassigned3 (c : Parameters) : BitVec 4 := c.unassigned.getD 2 0

/-- The operation of a Branch sub-op (30_encoding.md R95). As in the four tables below, the last operation stands for whatever
number the others leave, which in a proper configuration is its own. -/
def Parameters.branchOpOf (c : Parameters) (b : BitVec 3) : BranchOp :=
  if b = c.branchSubop .never then .never
  else if b = c.branchSubop .p then .p
  else if b = c.branchSubop .z then .z
  else if b = c.branchSubop .zp then .zp
  else if b = c.branchSubop .n then .n
  else if b = c.branchSubop .np then .np
  else if b = c.branchSubop .nz then .nz
  else .nzp

/-- The operation of an Arithmetic sub-op (30_encoding.md R91). -/
def Parameters.arithOpOf (c : Parameters) (b : BitVec 2) : ArithOp :=
  if b = c.arithSubop .add then .add else if b = c.arithSubop .mul then .mul else if b = c.arithSubop .sub then .sub else .div

/-- The operation of a Logical sub-op (30_encoding.md R92). -/
def Parameters.logicOpOf (c : Parameters) (b : BitVec 2) : LogicOp :=
  if b = c.logicSubop .and then .and else if b = c.logicSubop .not then .not else if b = c.logicSubop .or then .or else .xor

/-- The operation of a Comparative sub-op (30_encoding.md R93). -/
def Parameters.cmpOpOf (c : Parameters) (b : BitVec 2) : CmpOp :=
  if b = c.cmpSubop .cmp then .cmp else if b = c.cmpSubop .cmpu then .cmpu else if b = c.cmpSubop .cmpi then .cmpi else .cmpiu

/-- The operation of a Shift/Mod sub-op (30_encoding.md R94). -/
def Parameters.shiftOpOf (c : Parameters) (b : BitVec 2) : ShiftOp :=
  if b = c.shiftSubop .sll then .sll else if b = c.shiftSubop .sra then .sra else if b = c.shiftSubop .srl then .srl else .mod

/-- The class of an opcode in the standard configuration (30_encoding.md R90). -/
def Config.classOf (op : BitVec 4) : Option OpClass := Config.standard.classOf op

/-! ## Fields and immediates -/

/-- `v[lo+len-1 : lo]` (00_scope.md R6). -/
def field (lo len : Nat) (w : Word) : BitVec len := w.extractLsb' lo len

/-- The register named by the field that begins at bit `lo` (30_encoding.md R81). -/
def regField (lo : Nat) (w : Word) : Reg := Reg.ofBits (field lo 3 w)

/-- `sext_N` (30_encoding.md R84): if the field's sign bit is set, all bits above position N-1 are OR-ed in. -/
def sext (n : Nat) (f : BitVec n) : Word :=
  if f.msb then f.setWidth 16 ||| (0xFFFF#16 <<< n) else f.setWidth 16

/-- `zext_N` (00_scope.md R7). -/
def zext (n : Nat) (f : BitVec n) : Word := f.setWidth 16

/-! ## The decoder -/

/-- Branch class (30_encoding.md R81, R95). -/
def decodeBranch (c : Parameters) (w : Word) : Instr :=
  match c.branchOpOf (field 9 3 w) with
  | .never => .nop
  | .p => .brp (sext 9 (field 0 9 w))
  | .z => .brz (sext 9 (field 0 9 w))
  | .zp => .brzp (sext 9 (field 0 9 w))
  | .n => .brn (sext 9 (field 0 9 w))
  | .np => .brnp (sext 9 (field 0 9 w))
  | .nz => .brnz (sext 9 (field 0 9 w))
  | .nzp => .brnzp (sext 9 (field 0 9 w))

/-- Arithmetic class (30_encoding.md R81, R82, R91): `insn[5]` alone tells the immediate form. -/
def decodeArithmetic (c : Parameters) (w : Word) : Instr :=
  if field 5 1 w = 1 then .addi (regField 9 w) (regField 6 w) (sext 5 (field 0 5 w))
  else match c.arithOpOf (field 3 2 w) with
    | .add => .add (regField 9 w) (regField 6 w) (regField 0 w)
    | .mul => .mul (regField 9 w) (regField 6 w) (regField 0 w)
    | .sub => .sub (regField 9 w) (regField 6 w) (regField 0 w)
    | .div => .div (regField 9 w) (regField 6 w) (regField 0 w)

/-- Comparative class (30_encoding.md R81, R93): `rs` stands at 11:9. -/
def decodeComparative (c : Parameters) (w : Word) : Instr :=
  match c.cmpOpOf (field 7 2 w) with
  | .cmp => .cmp (regField 9 w) (regField 0 w)
  | .cmpu => .cmpu (regField 9 w) (regField 0 w)
  | .cmpi => .cmpi (regField 9 w) (sext 7 (field 0 7 w))
  | .cmpiu => .cmpiu (regField 9 w) (zext 7 (field 0 7 w))

/-- JSR class (30_encoding.md R81, R96). -/
def decodeJsr (w : Word) : Instr :=
  if field 11 1 w = 1 then .jsr (field 0 11 w) else .jsrr (regField 6 w)

/-- Logical class (30_encoding.md R81, R82, R92). -/
def decodeLogical (c : Parameters) (w : Word) : Instr :=
  if field 5 1 w = 1 then .andi (regField 9 w) (regField 6 w) (sext 5 (field 0 5 w))
  else match c.logicOpOf (field 3 2 w) with
    | .and => .and (regField 9 w) (regField 6 w) (regField 0 w)
    | .not => .not (regField 9 w) (regField 6 w)
    | .or => .or (regField 9 w) (regField 6 w) (regField 0 w)
    | .xor => .xor (regField 9 w) (regField 6 w) (regField 0 w)

/-- Shift/Mod class (30_encoding.md R81, R94). -/
def decodeShiftMod (c : Parameters) (w : Word) : Instr :=
  match c.shiftOpOf (field 4 2 w) with
  | .sll => .sll (regField 9 w) (regField 6 w) (field 0 4 w)
  | .sra => .sra (regField 9 w) (regField 6 w) (field 0 4 w)
  | .srl => .srl (regField 9 w) (regField 6 w) (field 0 4 w)
  | .mod => .mod (regField 9 w) (regField 6 w) (regField 0 w)

/-- Jump class (30_encoding.md R81, R96). -/
def decodeJump (w : Word) : Instr :=
  if field 11 1 w = 1 then .jmp (sext 11 (field 0 11 w)) else .jmpr (regField 6 w)

/-- The words of the three opcodes no class has (30_encoding.md R98), told apart by their opcode (log 25). -/
def decodeUnassigned (c : Parameters) (w : Word) : Instr :=
  if field 12 4 w = c.unassigned1 then .illegal3 (field 0 12 w)
  else if field 12 4 w = c.unassigned2 then .illegalB (field 0 12 w)
  else .illegalE (field 0 12 w)

/-- `Decode` (30_encoding.md R103) under a configuration, a pure function of the 16 bits, total: every word is an instruction or
one of the three unassigned opcodes, which are rejected by name when executed (R98, R99). -/
def decodeUnder (c : Parameters) (w : Word) : Instr :=
  match c.classOf (field 12 4 w) with
  | some .branch => decodeBranch c w
  | some .arithmetic => decodeArithmetic c w
  | some .comparative => decodeComparative c w
  | some .jsr => decodeJsr w
  | some .logical => decodeLogical c w
  | some .load => .ldr (regField 9 w) (regField 6 w) (sext 6 (field 0 6 w))
  | some .store => .str (regField 9 w) (regField 6 w) (sext 6 (field 0 6 w))
  | some .rti => .rti
  | some .const => .const (regField 9 w) (sext 9 (field 0 9 w))
  | some .shiftMod => decodeShiftMod c w
  | some .jump => decodeJump w
  | some .hiConst => .hiconst (regField 9 w) (field 0 8 w)
  | some .trap => .trap (field 0 8 w)
  | none => decodeUnassigned c w

/-- `Decode` (30_encoding.md R103) in the standard configuration. -/
def decode (w : Word) : Instr := decodeUnder Config.standard w

/-- The instruction the decoder reads from the table's bits: one word, the bits above `nbits` zero; none where more than one
word is asked for (every instruction is one 16-bit word, 30_encoding.md R80). -/
def decodeTableWord (nbits w : Nat) : Option Instr :=
  if nbits ≤ 16 then some (decode (BitVec.ofNat 16 (w % 2 ^ nbits))) else none

/-! ## The encoder -/

/-- A field put at its position: bit 0 of `f` becomes bit `lo` of the word (30_encoding.md R104). -/
def place (lo : Nat) {n : Nat} (f : BitVec n) : Word := f.setWidth 16 <<< lo

/-- The opcode in bits 15:12 (30_encoding.md R81). -/
def placeOpcode (c : Parameters) (k : OpClass) : Word := place 12 (c.opcodeOf k)

/-- A register number in the three bits from `lo` up (30_encoding.md R81). -/
def placeReg (lo : Nat) (r : Reg) : Word := place lo r.toBits

/-- Branch format: sub-op 11:9, imm9 8:0 (30_encoding.md R81). -/
def encodeBranch (c : Parameters) (op : BranchOp) (imm : Word) : Word :=
  placeOpcode c .branch ||| place 9 (c.branchSubop op) ||| place 0 (field 0 9 imm)

/-- Register form of the Arithmetic and Logical formats: rd 11:9, rs 8:6, bit 5 zero, sub-op 4:3 (30_encoding.md R81, R82);
`rt`, where there is one, is OR-ed in at 2:0. -/
def encodeRegForm (c : Parameters) (k : OpClass) (rd rs : Reg) (sub : BitVec 2) : Word :=
  placeOpcode c k ||| placeReg 9 rd ||| placeReg 6 rs ||| place 3 sub

/-- Immediate form of the Arithmetic and Logical formats: rd 11:9, rs 8:6, bit 5 one, imm5 4:0 (30_encoding.md R81, R82). -/
def encodeImmForm (c : Parameters) (k : OpClass) (rd rs : Reg) (imm : Word) : Word :=
  placeOpcode c k ||| placeReg 9 rd ||| placeReg 6 rs ||| place 5 1#1 ||| place 0 (field 0 5 imm)

/-- Comparative format: rs 11:9, sub-op 8:7 (30_encoding.md R81); the second operand is OR-ed in. -/
def encodeCompare (c : Parameters) (op : CmpOp) (rs : Reg) : Word :=
  placeOpcode c .comparative ||| placeReg 9 rs ||| place 7 (c.cmpSubop op)

/-- Shift/Mod format: rd 11:9, rs 8:6, sub-op 5:4 (30_encoding.md R81); the last operand is OR-ed in. -/
def encodeShift (c : Parameters) (op : ShiftOp) (rd rs : Reg) : Word :=
  placeOpcode c .shiftMod ||| placeReg 9 rd ||| placeReg 6 rs ||| place 4 (c.shiftSubop op)

/-- Register form of the Jump and JSR formats: sub-op 0 in bit 11, rs 8:6 (30_encoding.md R81, R96). -/
def encodeJumpReg (c : Parameters) (k : OpClass) (rs : Reg) : Word := placeOpcode c k ||| placeReg 6 rs

/-- Immediate form of the Jump and JSR formats: sub-op 1 in bit 11, imm11 10:0 (30_encoding.md R81, R96). -/
def encodeJumpImm (c : Parameters) (k : OpClass) (imm : BitVec 11) : Word := placeOpcode c k ||| place 11 1#1 ||| place 0 imm

/-- Load and Store format: a register 11:9, rs 8:6, imm6 5:0 (30_encoding.md R81). -/
def encodeMem (c : Parameters) (k : OpClass) (r rs : Reg) (imm : Word) : Word :=
  placeOpcode c k ||| placeReg 9 r ||| placeReg 6 rs ||| place 0 (field 0 6 imm)

/-- The word of a well-formed instruction under a configuration (30_encoding.md R104): every operand in its field, 0 in every
ignored bit. -/
def encodeUnder (c : Parameters) : Instr → Word
  | .nop => encodeBranch c .never 0
  | .brp imm => encodeBranch c .p imm
  | .brz imm => encodeBranch c .z imm
  | .brzp imm => encodeBranch c .zp imm
  | .brn imm => encodeBranch c .n imm
  | .brnp imm => encodeBranch c .np imm
  | .brnz imm => encodeBranch c .nz imm
  | .brnzp imm => encodeBranch c .nzp imm
  | .add rd rs rt => encodeRegForm c .arithmetic rd rs (c.arithSubop .add) ||| placeReg 0 rt
  | .mul rd rs rt => encodeRegForm c .arithmetic rd rs (c.arithSubop .mul) ||| placeReg 0 rt
  | .sub rd rs rt => encodeRegForm c .arithmetic rd rs (c.arithSubop .sub) ||| placeReg 0 rt
  | .div rd rs rt => encodeRegForm c .arithmetic rd rs (c.arithSubop .div) ||| placeReg 0 rt
  | .addi rd rs imm => encodeImmForm c .arithmetic rd rs imm
  | .cmp rs rt => encodeCompare c .cmp rs ||| placeReg 0 rt
  | .cmpu rs rt => encodeCompare c .cmpu rs ||| placeReg 0 rt
  | .cmpi rs imm => encodeCompare c .cmpi rs ||| place 0 (field 0 7 imm)
  | .cmpiu rs imm => encodeCompare c .cmpiu rs ||| place 0 (field 0 7 imm)
  | .jsrr rs => encodeJumpReg c .jsr rs
  | .jsr imm => encodeJumpImm c .jsr imm
  | .and rd rs rt => encodeRegForm c .logical rd rs (c.logicSubop .and) ||| placeReg 0 rt
  | .not rd rs => encodeRegForm c .logical rd rs (c.logicSubop .not)
  | .or rd rs rt => encodeRegForm c .logical rd rs (c.logicSubop .or) ||| placeReg 0 rt
  | .xor rd rs rt => encodeRegForm c .logical rd rs (c.logicSubop .xor) ||| placeReg 0 rt
  | .andi rd rs imm => encodeImmForm c .logical rd rs imm
  | .ldr rd rs imm => encodeMem c .load rd rs imm
  | .str rt rs imm => encodeMem c .store rt rs imm
  | .rti => placeOpcode c .rti
  | .const rd imm => placeOpcode c .const ||| placeReg 9 rd ||| place 0 (field 0 9 imm)
  | .sll rd rs amt => encodeShift c .sll rd rs ||| place 0 amt
  | .sra rd rs amt => encodeShift c .sra rd rs ||| place 0 amt
  | .srl rd rs amt => encodeShift c .srl rd rs ||| place 0 amt
  | .mod rd rs rt => encodeShift c .mod rd rs ||| placeReg 0 rt
  | .jmpr rs => encodeJumpReg c .jump rs
  | .jmp imm => encodeJumpImm c .jump (field 0 11 imm)
  | .hiconst rd imm => placeOpcode c .hiConst ||| placeReg 9 rd ||| place 0 imm
  | .trap imm => placeOpcode c .trap ||| place 0 imm
  | .illegal3 low => place 12 c.unassigned1 ||| place 0 low
  | .illegalB low => place 12 c.unassigned2 ||| place 0 low
  | .illegalE low => place 12 c.unassigned3 ||| place 0 low

/-- The word of a well-formed instruction (30_encoding.md R104) in the standard configuration. -/
def encode (i : Instr) : Word := encodeUnder Config.standard i

/-! ## The rows of the table

The list of R97 as it stands: for the standard configuration. -/

/-- The `match` column of the instruction's row (30_encoding.md R97; R98 for the unassigned opcodes). -/
def rowMatch : Instr → Word
  | .nop => 0x0000 | .brp _ => 0x0200 | .brz _ => 0x0400 | .brzp _ => 0x0600
  | .brn _ => 0x0800 | .brnp _ => 0x0A00 | .brnz _ => 0x0C00 | .brnzp _ => 0x0E00
  | .add _ _ _ => 0x1000 | .mul _ _ _ => 0x1008 | .sub _ _ _ => 0x1010 | .div _ _ _ => 0x1018 | .addi _ _ _ => 0x1020
  | .cmp _ _ => 0x2000 | .cmpu _ _ => 0x2080 | .cmpi _ _ => 0x2100 | .cmpiu _ _ => 0x2180
  | .jsrr _ => 0x4000 | .jsr _ => 0x4800
  | .and _ _ _ => 0x5000 | .not _ _ => 0x5008 | .or _ _ _ => 0x5010 | .xor _ _ _ => 0x5018 | .andi _ _ _ => 0x5020
  | .ldr _ _ _ => 0x6000 | .str _ _ _ => 0x7000 | .rti => 0x8000 | .const _ _ => 0x9000
  | .sll _ _ _ => 0xA000 | .sra _ _ _ => 0xA010 | .srl _ _ _ => 0xA020 | .mod _ _ _ => 0xA030
  | .jmpr _ => 0xC000 | .jmp _ => 0xC800 | .hiconst _ _ => 0xD000 | .trap _ => 0xF000
  | .illegal3 _ => 0x3000 | .illegalB _ => 0xB000 | .illegalE _ => 0xE000

/-- The `mask` column of the instruction's row (30_encoding.md R97). -/
def rowMask : Instr → Word
  | .nop => 0xFE00 | .brp _ => 0xFE00 | .brz _ => 0xFE00 | .brzp _ => 0xFE00
  | .brn _ => 0xFE00 | .brnp _ => 0xFE00 | .brnz _ => 0xFE00 | .brnzp _ => 0xFE00
  | .add _ _ _ => 0xF038 | .mul _ _ _ => 0xF038 | .sub _ _ _ => 0xF038 | .div _ _ _ => 0xF038 | .addi _ _ _ => 0xF020
  | .cmp _ _ => 0xF180 | .cmpu _ _ => 0xF180 | .cmpi _ _ => 0xF180 | .cmpiu _ _ => 0xF180
  | .jsrr _ => 0xF800 | .jsr _ => 0xF800
  | .and _ _ _ => 0xF038 | .not _ _ => 0xF038 | .or _ _ _ => 0xF038 | .xor _ _ _ => 0xF038 | .andi _ _ _ => 0xF020
  | .ldr _ _ _ => 0xF000 | .str _ _ _ => 0xF000 | .rti => 0xF000 | .const _ _ => 0xF000
  | .sll _ _ _ => 0xF030 | .sra _ _ _ => 0xF030 | .srl _ _ _ => 0xF030 | .mod _ _ _ => 0xF030
  | .jmpr _ => 0xF800 | .jmp _ => 0xF800 | .hiconst _ _ => 0xF000 | .trap _ => 0xF000
  | .illegal3 _ => 0xF000 | .illegalB _ => 0xF000 | .illegalE _ => 0xF000

/-- The bits of the instruction's words that it ignores (30_encoding.md R83). -/
def ignoredBits : Instr → Word
  | .nop => 0x01FF | .cmp _ _ => 0x0078 | .cmpu _ _ => 0x0078 | .not _ _ => 0x0007
  | .jmpr _ => 0x063F | .jsrr _ => 0x063F | .mod _ _ _ => 0x0008 | .hiconst _ _ => 0x0100
  | .trap _ => 0x0F00 | .rti => 0x0FFF
  | .brp _ => 0 | .brz _ => 0 | .brzp _ => 0 | .brn _ => 0 | .brnp _ => 0 | .brnz _ => 0 | .brnzp _ => 0
  | .add _ _ _ => 0 | .mul _ _ _ => 0 | .sub _ _ _ => 0 | .div _ _ _ => 0 | .addi _ _ _ => 0
  | .cmpi _ _ => 0 | .cmpiu _ _ => 0 | .jsr _ => 0
  | .and _ _ _ => 0 | .or _ _ _ => 0 | .xor _ _ _ => 0 | .andi _ _ _ => 0
  | .ldr _ _ _ => 0 | .str _ _ _ => 0 | .const _ _ => 0
  | .sll _ _ _ => 0 | .sra _ _ _ => 0 | .srl _ _ _ => 0 | .jmp _ => 0
  | .illegal3 _ => 0 | .illegalB _ => 0 | .illegalE _ => 0

end Sys2Proof
end

