-- ==== Sys2Proof/Machine/State.lean ====
section
/-! DEFINITION. The machine state as plain data, its reset value, and the reasons a cycle can stop (10_state.md; 60_exceptions.md
R240). -/

namespace Sys2Proof.Machine

/-- The eight general registers, 16 bits each (10_state.md R20). -/
structure RegFile where
  r0 : Word
  r1 : Word
  r2 : Word
  r3 : Word
  r4 : Word
  r5 : Word
  r6 : Word
  r7 : Word
deriving DecidableEq, Repr

/-- The memory array (10_state.md R34), as (address, word) pairs in one canonical form: addresses strictly rising and
below 65536, no entry equal to what an unlisted address reads as (`Memory.wf`, Ops.lean). The cell is the 16-bit word,
the machine's only addressable unit (20_memory.md R50, R51; log 13). -/
abbrev Memory := List (Nat × Word)

/-- The latched control signals (10_state.md R36). -/
structure Signals where
  /-- the `rs` field decoded this cycle -/
  rsSel : BitVec 3
  /-- the `rt` field decoded this cycle -/
  rtSel : BitVec 3
  /-- the register written this cycle -/
  rdSel : BitVec 3
  /-- a general register is written -/
  regWE : Bool
  /-- `SetNZP` runs -/
  nzpWE : Bool
  /-- the code `SetNZP` wrote -/
  nzpCode : BitVec 3
  /-- memory is written -/
  dmemWE : Bool
  /-- effective address of a load or store -/
  dmemAddr : Word
  /-- the word stored or loaded -/
  dmemValue : Word
deriving DecidableEq, Repr

/-- Every control signal zero (10_state.md R37). -/
def Signals.zero : Signals :=
  { rsSel := 0, rtSel := 0, rdSel := 0, regWE := false, nzpWE := false, nzpCode := 0, dmemWE := false, dmemAddr := 0,
    dmemValue := 0 }

/-- The record a successful cycle hands to the trace sink (40_sequencer.md R134). -/
structure TraceRecord where
  pc : Word
  insn : Word
  regWE : Bool
  rd : BitVec 3
  regValue : Word
  nzpWE : Bool
  nzp : BitVec 3
  dmemWE : Bool
  dmemAddr : Word
  dmemValue : Word
deriving DecidableEq, Repr

/-- The two privilege modes held in `PSR[15]` (60_exceptions.md R252). -/
inductive Mode where
  | user
  | supervisor
deriving DecidableEq, Repr

end Sys2Proof.Machine

namespace Sys2Proof.Machine

/-- The machine state: R, PC, PSR and memory (10_state.md R20, R24, R27, R34), the latched control signals (R36), and the
records handed to the trace sink so far, oldest first (40_sequencer.md R122 step 6; log 14). -/
structure State where
  regs : RegFile
  pc : Word
  psr : Word
  mem : Memory
  sig : Signals
  trace : List TraceRecord
deriving DecidableEq, Repr

/-- The three fatal conditions (60_exceptions.md R240). Each ends the run; the state stays as it was before the failing
cycle (R241). They are the spec's own, so each is exact, neither safe nor unsafe in itself. -/
inductive Fault where
  /-- Raised by the sequencer before the fetch when the mode may not fetch at PC; carries PC (R242). Exact. -/
  | fetchPermission (pc : Word)
  /-- Raised by the dispatcher for a word whose opcode no class has; carries the word (R243). Exact, given `OPCODE_MAP` (log
  1, log 12); unsafe under another map. -/
  | illegalOpcode (insn : Word)
  /-- Raised by LDR and STR when the mode may not reach the effective address; carries it (R242). Exact. -/
  | dataPermission (ea : Word)
deriving DecidableEq, Repr

/-- Reasons to give an instruction no meaning. Nothing in the spec is one (00_scope.md R10). -/
inductive Refusal where
  /-- Raised by no arm of `exec`: every instruction has its meaning. Safe. -/
  | notModelled (mnemonic : String)
deriving DecidableEq, Repr

/-- What a cycle, or a meaning, answers. -/
abbrev Answer := Host.Outcome State Fault Refusal

/-- The state right after reset (10_state.md R38, 70_reset_and_hazards.md R280): PC = 0x8200, PSR = 0x8002, registers, memory
and control signals zero; no record has been handed to the trace sink. -/
def State.reset : State :=
  { regs := { r0 := 0, r1 := 0, r2 := 0, r3 := 0, r4 := 0, r5 := 0, r6 := 0, r7 := 0 }
    pc := Config.resetPc
    psr := Config.resetPsr
    mem := []
    sig := Signals.zero
    trace := [] }

end Sys2Proof.Machine
end

