-- ==== Sys2Proof/Machine/Flags.lean ====
section
/-! DEFINITION. The status register's fields and the condition codes (10_state.md R27 to R32; 42_compare.md R160). -/

namespace Sys2Proof.Machine

/-- The mode `PSR[15]` holds (10_state.md R27). -/
def modeOf (psr : Word) : Mode :=
  if psr &&& Config.privMask = 0 then .user else .supervisor

/-- `PSR[15] <- b`, every other bit as it was (00_scope.md R7). -/
def withMode (m : Mode) (psr : Word) : Word :=
  match m with
  | .user => psr &&& ~~~Config.privMask
  | .supervisor => psr ||| Config.privMask

/-- `PSR[2:0]` (10_state.md R27). -/
def codeOf (psr : Word) : BitVec 3 := psr.extractLsb' 0 3

/-- `PSR[2:0] <- code`, every other bit as it was (00_scope.md R7). -/
def withCode (code : BitVec 3) (psr : Word) : Word :=
  (psr &&& 0xFFF8) ||| code.setWidth 16

/-- The code of a 16-bit value (10_state.md R31): N if bit 15 is set, Z if zero, P otherwise; which code each has is the
configuration's. -/
def nzpCode (c : Parameters) (v : Word) : BitVec 3 :=
  if v.msb then c.codeN else if v = 0 then c.codeZ else c.codeP

/-- `SetNZP(v)` (10_state.md R31): writes `PSR[2:0]` and the trace-visible code; `sig.nzpWE` says that it ran (10_state.md
R36, 40_sequencer.md R125; log 8). -/
def setNzp (c : Parameters) (v : Word) (s : State) : State :=
  { s with
    psr := withCode (nzpCode c v) s.psr
    sig := { s.sig with nzpWE := true, nzpCode := nzpCode c v } }

/-- The value a comparison hands to `SetNZP` (42_compare.md R160): 0xFFFF for less, 0x0000 for equal, 0x0001 for greater, of
the integers the operands stand for; exact, never a wrapped difference (D10, log 6). -/
def compareValue (a b : Int) : Word :=
  if a < b then 0xFFFF else if a = b then 0x0000 else 0x0001

end Sys2Proof.Machine
end

