-- ==== Sys2Proof/Machine/Ops.lean ====
section
/-! DEFINITION. The operations over registers, memory, PC, privilege and control signals that the meanings share; raising a
fatal condition (60_exceptions.md R241); entering a trap and returning from one (49_trap_rti.md R231, R233). -/

namespace Sys2Proof.Machine

/-! ## Registers -/

/-- `R[r]` of a register file (00_scope.md R7). -/
def RegFile.get (f : RegFile) : Reg → Word
  | .r0 => f.r0 | .r1 => f.r1 | .r2 => f.r2 | .r3 => f.r3
  | .r4 => f.r4 | .r5 => f.r5 | .r6 => f.r6 | .r7 => f.r7

/-- The register file with `R[r]` set to `v` (00_scope.md R7). -/
def RegFile.set (f : RegFile) (r : Reg) (v : Word) : RegFile :=
  match r with
  | .r0 => { f with r0 := v } | .r1 => { f with r1 := v } | .r2 => { f with r2 := v } | .r3 => { f with r3 := v }
  | .r4 => { f with r4 := v } | .r5 => { f with r5 := v } | .r6 => { f with r6 := v } | .r7 => { f with r7 := v }

/-- `R[r]` (00_scope.md R7). -/
def readReg (s : State) (r : Reg) : Word := s.regs.get r

/-- `R[r] <- v` (00_scope.md R7), driving `sig.regWE` and `sig.rdSel` (10_state.md R36, 40_sequencer.md R130). -/
def writeReg (r : Reg) (v : Word) (s : State) : State :=
  { s with
    regs := s.regs.set r v
    sig := { s.sig with regWE := true, rdSel := r.toBits } }

/-! ## Memory -/

/-- The word an address holds: the listed one, else the reset contents (10_state.md R38). -/
def Memory.read : Memory → Nat → Word
  | [], _ => Config.memoryReset
  | (k, w) :: rest, a => if k = a then w else Memory.read rest a

/-- Adds a cell before the first listed address that is larger. -/
def Memory.insertCell (a : Nat) (v : Word) : Memory → Memory
  | [] => [(a, v)]
  | (k, w) :: rest => if a < k then (a, v) :: (k, w) :: rest else (k, w) :: Memory.insertCell a v rest

/-- `memory[a] <- v`: the cell is dropped, and listed anew unless `v` is what an unlisted address reads as. -/
def Memory.write (m : Memory) (a : Nat) (v : Word) : Memory :=
  let others := m.filter (fun c => c.1 != a)
  if v = Config.memoryReset then others else Memory.insertCell a v others

/-- The canonical form: addresses strictly rising and inside the space of 65536 words (10_state.md R34), no cell equal to
what an unlisted address reads as. -/
abbrev Memory.wf (m : Memory) : Prop :=
  m.Pairwise (fun c d => c.1 < d.1) ∧ ∀ c ∈ m, c.1 < Config.memWords ∧ c.2 ≠ Config.memoryReset

/-- `MemRead(a, 1)` (47_load_store.md R213): the word, with no side effect. -/
def loadWord (s : State) (a : Word) : Word := s.mem.read a.toNat

/-- `MemWrite(a, 1, v)` (47_load_store.md R213): one cell changes, no other. -/
def storeWord (a v : Word) (s : State) : State :=
  { s with mem := s.mem.write a.toNat v }

/-! ## Program counter -/

/-- `pc <- target` (00_scope.md R7). -/
def setPc (target : Word) (s : State) : State := { s with pc := target }

/-- `pc <- PC + 1`, modulo 65536 (10_state.md R24, R26). -/
def advancePc (s : State) : State := setPc (s.pc + 1) s

/-! ## Privilege -/

/-- The privilege in force, `PSR[15]` (10_state.md R27). -/
def currentMode (s : State) : Mode := modeOf s.psr

/-- `PSR[15] <- b`, every other bit as it was (00_scope.md R7). -/
def setMode (m : Mode) (s : State) : State := { s with psr := withMode m s.psr }

/-- `Denied(priv, a)`, the permission checker (20_memory.md R58), its asymmetry at 0xFFFF kept (R59). -/
def denied (m : Mode) (a : Word) : Bool :=
  match m with
  | .user => decide (Config.userTop.toNat < a.toNat) && decide (a.toNat < Config.userOpenTop.toNat)
  | .supervisor => decide (a.toNat ≤ Config.userTop.toNat)

/-- `raise Cause(info)` (60_exceptions.md R241): the cycle ends with no effect at all. What the machine holds after it is
`afterCycle` (Sequencer.lean). -/
def raiseFatal (cause : Fault) : Answer := .fault cause

/-! ## Control signals -/

/-- Drives `sig.rsSel` with the decoded field (40_sequencer.md R130). -/
def selectRs (r : Reg) (s : State) : State := { s with sig := { s.sig with rsSel := r.toBits } }

/-- Drives `sig.rtSel` with the decoded field (40_sequencer.md R130). -/
def selectRt (r : Reg) (s : State) : State := { s with sig := { s.sig with rtSel := r.toBits } }

/-- A load drives the address and the word loaded (40_sequencer.md R130; D15, log 8). -/
def driveLoad (ea v : Word) (s : State) : State := { s with sig := { s.sig with dmemAddr := ea, dmemValue := v } }

/-- A store drives its enable, the address and the word stored (40_sequencer.md R130). -/
def driveStore (ea v : Word) (s : State) : State :=
  { s with sig := { s.sig with dmemWE := true, dmemAddr := ea, dmemValue := v } }

/-- Every control signal cleared (10_state.md R37). -/
def clearSignals (s : State) : State := { s with sig := Signals.zero }

/-! ## What every computing instruction does with its result -/

/-- `R[rd] <- v ; SetNZP(v) ; pc <- PC + 1` (41_arithmetic.md R150 and the like). -/
def writeResult (c : Parameters) (rd : Reg) (v : Word) (s : State) : State := advancePc (setNzp c v (writeReg rd v s))

/-! ## Trap entry and return -/

/-- Trap entry (49_trap_rti.md R231, 60_exceptions.md R249): the return address goes to `R[7]`, the flags take its code (D13,
log 7), the mode becomes supervisor, control goes to `0x8000 | imm8`. Nothing else is saved. -/
def enterTrap (c : Parameters) (imm : BitVec 8) (s : State) : State :=
  setPc (Config.trapBase ||| zext 8 imm)
    (setMode .supervisor (setNzp c (s.pc + 1) (writeReg Config.linkReg (s.pc + 1) s)))

/-- Trap return (49_trap_rti.md R233, 60_exceptions.md R250): PC from `R[7]`, the mode becomes user; flags and registers
stay. -/
def returnFromTrap (s : State) : State := setMode .user (setPc (readReg s Config.linkReg) s)

end Sys2Proof.Machine
end

