-- ==== Sys2Proof/Machine/Operands.lean ====
section
/-! DEFINITION. The operand forms: effective address, relative target, page-absolute target, the two readings of a register
(30_encoding.md R85; 45_jump_jsr.md R193; 47_load_store.md R210). -/

namespace Sys2Proof.Machine

/-- `s(v)` (00_scope.md R6). -/
def signedOf (v : Word) : Int := v.toInt

/-- `u(v)` (00_scope.md R6), as an integer. -/
def unsignedOf (v : Word) : Int := (v.toNat : Int)

/-- The effective address of LDR and STR (47_load_store.md R210): `R[rs]` plus the sign-extended offset, modulo 65536. -/
def effectiveAddress (rs : Reg) (imm : Word) (s : State) : Word := readReg s rs + imm

/-- A relative target (44_branch.md R180, 45_jump_jsr.md R191): `PC + 1` plus the sign-extended offset, modulo 65536. -/
def relativeTarget (imm : Word) (s : State) : Word := s.pc + 1 + imm

/-- JSR's field as a 16-bit value before the shift (30_encoding.md R85, R86), by `JSR_IMM_SIGNED` (D11, log 4). -/
def jsrOffset (c : Parameters) (imm : BitVec 11) : Word := if c.jsrImmSigned then sext 11 imm else zext 11 imm

/-- JSR's page-absolute target (45_jump_jsr.md R193): PC's high bit, then the field shifted left by 4. -/
def jsrTarget (c : Parameters) (imm : BitVec 11) (s : State) : Word := (s.pc &&& 0x8000) ||| (jsrOffset c imm <<< 4)

/-- HICONST's value (48_const.md R222): the high byte replaced, the low byte kept. -/
def replaceHighByte (imm : BitVec 8) (old : Word) : Word := (old &&& 0x00FF) ||| (zext 8 imm <<< 8)

end Sys2Proof.Machine
end

