-- ==== Sys2Proof/Machine/Arithmetic.lean ====
section
/-! DEFINITION. Arithmetic class: ADD, MUL, SUB, DIV, ADDI (41_arithmetic.md R150 to R156). Sources are read before the
destination is written (10_state.md R23). -/

namespace Sys2Proof.Machine

/-- ADD (41_arithmetic.md R151). -/
def execAddUnder (c : Parameters) (rd rs rt : Reg) (s : State) : Answer :=
  .next (writeResult c rd (readReg s rs + readReg s rt) (selectRt rt (selectRs rs s)))

/-- ADD (41_arithmetic.md R151) in the standard configuration. -/
def execAdd (rd rs rt : Reg) (s : State) : Answer := execAddUnder Config.standard rd rs rt s

/-- MUL (41_arithmetic.md R152): the low 16 bits of the product. -/
def execMulUnder (c : Parameters) (rd rs rt : Reg) (s : State) : Answer :=
  .next (writeResult c rd (readReg s rs * readReg s rt) (selectRt rt (selectRs rs s)))

/-- MUL (41_arithmetic.md R152) in the standard configuration. -/
def execMul (rd rs rt : Reg) (s : State) : Answer := execMulUnder Config.standard rd rs rt s

/-- SUB (41_arithmetic.md R153): `R[rs]` minus `R[rt]` (D21, log 6). -/
def execSubUnder (c : Parameters) (rd rs rt : Reg) (s : State) : Answer :=
  .next (writeResult c rd (readReg s rs - readReg s rt) (selectRt rt (selectRs rs s)))

/-- SUB (41_arithmetic.md R153) in the standard configuration. -/
def execSub (rd rs rt : Reg) (s : State) : Answer := execSubUnder Config.standard rd rs rt s

/-- DIV (41_arithmetic.md R154): `DIV_FN`; a zero divisor is no fatal condition. -/
def execDivUnder (c : Parameters) (rd rs rt : Reg) (s : State) : Answer :=
  .next (writeResult c rd (c.divFn (readReg s rs) (readReg s rt)) (selectRt rt (selectRs rs s)))

/-- DIV (41_arithmetic.md R154) in the standard configuration. -/
def execDiv (rd rs rt : Reg) (s : State) : Answer := execDivUnder Config.standard rd rs rt s

/-- ADDI (41_arithmetic.md R155). -/
def execAddiUnder (c : Parameters) (rd rs : Reg) (imm : Word) (s : State) : Answer :=
  .next (writeResult c rd (readReg s rs + imm) (selectRs rs s))

/-- ADDI (41_arithmetic.md R155) in the standard configuration. -/
def execAddi (rd rs : Reg) (imm : Word) (s : State) : Answer := execAddiUnder Config.standard rd rs imm s

end Sys2Proof.Machine
end

