-- ==== Sys2Proof/Machine/Branch.lean ====
section
/-! DEFINITION. Branch class: NOP, BRp, BRz, BRzp, BRn, BRnp, BRnz, BRnzp (44_branch.md R180 to R189): only PC is written. -/

namespace Sys2Proof.Machine

/-- `Branch(mask, off)` (44_branch.md R180): taken when a flag the mask names is set. -/
def branchOn (mask : BitVec 3) (imm : Word) (s : State) : State :=
  if mask &&& codeOf s.psr ≠ 0 then setPc (relativeTarget imm s) s else advancePc s

/-- NOP (44_branch.md R181): the branch that is never taken. -/
def execNop (s : State) : Answer := .next (advancePc s)

/-- BRp (44_branch.md R182). -/
def execBrpUnder (c : Parameters) (imm : Word) (s : State) : Answer := .next (branchOn c.codeP imm s)

/-- BRp (44_branch.md R182) in the standard configuration. -/
def execBrp (imm : Word) (s : State) : Answer := execBrpUnder Config.standard imm s

/-- BRz (44_branch.md R183). -/
def execBrzUnder (c : Parameters) (imm : Word) (s : State) : Answer := .next (branchOn c.codeZ imm s)

/-- BRz (44_branch.md R183) in the standard configuration. -/
def execBrz (imm : Word) (s : State) : Answer := execBrzUnder Config.standard imm s

/-- BRzp (44_branch.md R184). -/
def execBrzpUnder (c : Parameters) (imm : Word) (s : State) : Answer := .next (branchOn (c.codeZ ||| c.codeP) imm s)

/-- BRzp (44_branch.md R184) in the standard configuration. -/
def execBrzp (imm : Word) (s : State) : Answer := execBrzpUnder Config.standard imm s

/-- BRn (44_branch.md R185). -/
def execBrnUnder (c : Parameters) (imm : Word) (s : State) : Answer := .next (branchOn c.codeN imm s)

/-- BRn (44_branch.md R185) in the standard configuration. -/
def execBrn (imm : Word) (s : State) : Answer := execBrnUnder Config.standard imm s

/-- BRnp (44_branch.md R186). -/
def execBrnpUnder (c : Parameters) (imm : Word) (s : State) : Answer := .next (branchOn (c.codeN ||| c.codeP) imm s)

/-- BRnp (44_branch.md R186) in the standard configuration. -/
def execBrnp (imm : Word) (s : State) : Answer := execBrnpUnder Config.standard imm s

/-- BRnz (44_branch.md R187). -/
def execBrnzUnder (c : Parameters) (imm : Word) (s : State) : Answer := .next (branchOn (c.codeN ||| c.codeZ) imm s)

/-- BRnz (44_branch.md R187) in the standard configuration. -/
def execBrnz (imm : Word) (s : State) : Answer := execBrnzUnder Config.standard imm s

/-- BRnzp (44_branch.md R188): the mask test of R180, not "always". -/
def execBrnzpUnder (c : Parameters) (imm : Word) (s : State) : Answer :=
  .next (branchOn (c.codeN ||| c.codeZ ||| c.codeP) imm s)

/-- BRnzp (44_branch.md R188) in the standard configuration. -/
def execBrnzp (imm : Word) (s : State) : Answer := execBrnzpUnder Config.standard imm s

end Sys2Proof.Machine
end

