-- ==== Sys2Proof/Machine/Comparative.lean ====
section
/-! DEFINITION. Comparative class: CMP, CMPU, CMPI, CMPIU (42_compare.md R160 to R165): only the flags and PC are written. -/

namespace Sys2Proof.Machine

/-- `Compare(a, b)` (42_compare.md R160): `SetNZP` of the three-way comparison, then `pc <- PC + 1`. -/
def compareThen (c : Parameters) (a b : Int) (s : State) : State := advancePc (setNzp c (compareValue a b) s)

/-- CMP (42_compare.md R161): both read as signed. -/
def execCmpUnder (c : Parameters) (rs rt : Reg) (s : State) : Answer :=
  .next (compareThen c (signedOf (readReg s rs)) (signedOf (readReg s rt)) (selectRt rt (selectRs rs s)))

/-- CMP (42_compare.md R161) in the standard configuration. -/
def execCmp (rs rt : Reg) (s : State) : Answer := execCmpUnder Config.standard rs rt s

/-- CMPU (42_compare.md R162): both read as unsigned. -/
def execCmpuUnder (c : Parameters) (rs rt : Reg) (s : State) : Answer :=
  .next (compareThen c (unsignedOf (readReg s rs)) (unsignedOf (readReg s rt)) (selectRt rt (selectRs rs s)))

/-- CMPU (42_compare.md R162) in the standard configuration. -/
def execCmpu (rs rt : Reg) (s : State) : Answer := execCmpuUnder Config.standard rs rt s

/-- CMPI (42_compare.md R163): against the signed immediate. -/
def execCmpiUnder (c : Parameters) (rs : Reg) (imm : Word) (s : State) : Answer :=
  .next (compareThen c (signedOf (readReg s rs)) (signedOf imm) (selectRs rs s))

/-- CMPI (42_compare.md R163) in the standard configuration. -/
def execCmpi (rs : Reg) (imm : Word) (s : State) : Answer := execCmpiUnder Config.standard rs imm s

/-- CMPIU (42_compare.md R164): against the unsigned immediate. -/
def execCmpiuUnder (c : Parameters) (rs : Reg) (imm : Word) (s : State) : Answer :=
  .next (compareThen c (unsignedOf (readReg s rs)) (unsignedOf imm) (selectRs rs s))

/-- CMPIU (42_compare.md R164) in the standard configuration. -/
def execCmpiu (rs : Reg) (imm : Word) (s : State) : Answer := execCmpiuUnder Config.standard rs imm s

end Sys2Proof.Machine
end

