-- ==== Sys2Proof/Machine/Const.lean ====
section
/-! DEFINITION. Const class (CONST) and HiConst class (HICONST) (48_const.md R220 to R223). -/

namespace Sys2Proof.Machine

/-- CONST (48_const.md R221). -/
def execConstUnder (c : Parameters) (rd : Reg) (imm : Word) (s : State) : Answer := .next (writeResult c rd imm s)

/-- CONST (48_const.md R221) in the standard configuration. -/
def execConst (rd : Reg) (imm : Word) (s : State) : Answer := execConstUnder Config.standard rd imm s

/-- HICONST (48_const.md R222): reads the old `R[rd]`. -/
def execHiconstUnder (c : Parameters) (rd : Reg) (imm : BitVec 8) (s : State) : Answer :=
  .next (writeResult c rd (replaceHighByte imm (readReg s rd)) s)

/-- HICONST (48_const.md R222) in the standard configuration. -/
def execHiconst (rd : Reg) (imm : BitVec 8) (s : State) : Answer := execHiconstUnder Config.standard rd imm s

end Sys2Proof.Machine
end

