-- ==== Sys2Proof/Machine/Jump.lean ====
section
/-! DEFINITION. Jump class (JMPR, JMP) and JSR class (JSRR, JSR) (45_jump_jsr.md R190 to R195). No target is checked here; the
next fetch is. -/

namespace Sys2Proof.Machine

/-- JMPR (45_jump_jsr.md R190). -/
def execJmpr (rs : Reg) (s : State) : Answer := .next (setPc (readReg s rs) (selectRs rs s))

/-- JMP (45_jump_jsr.md R191). -/
def execJmp (imm : Word) (s : State) : Answer := .next (setPc (relativeTarget imm s) s)

/-- `R[7] <- PC + 1` (45_jump_jsr.md R192, R193), with no `SetNZP`. -/
def link (s : State) : State := writeReg Config.linkReg (s.pc + 1) s

/-- JSRR's target (45_jump_jsr.md R192): `R[rs]` read after the link write, or before it, by `JSRR_LINK_FIRST` (D12, log 5). -/
def jsrrTarget (c : Parameters) (rs : Reg) (s : State) : Word :=
  if c.jsrrLinkFirst then readReg (link s) rs else readReg s rs

/-- JSRR (45_jump_jsr.md R192). -/
def execJsrrUnder (c : Parameters) (rs : Reg) (s : State) : Answer := .next (setPc (jsrrTarget c rs s) (link (selectRs rs s)))

/-- JSRR (45_jump_jsr.md R192) in the standard configuration. -/
def execJsrr (rs : Reg) (s : State) : Answer := execJsrrUnder Config.standard rs s

/-- JSR (45_jump_jsr.md R193): both right-hand sides use the address of the JSR itself. -/
def execJsrUnder (c : Parameters) (imm : BitVec 11) (s : State) : Answer := .next (setPc (jsrTarget c imm s) (link s))

/-- JSR (45_jump_jsr.md R193) in the standard configuration. -/
def execJsr (imm : BitVec 11) (s : State) : Answer := execJsrUnder Config.standard imm s

end Sys2Proof.Machine
end

