-- ==== Sys2Proof/Machine/LoadStore.lean ====
section
/-! DEFINITION. Load class (LDR) and Store class (STR) (47_load_store.md R210 to R213). The permission check comes before
anything is read or written (20_memory.md R66). -/

namespace Sys2Proof.Machine

/-- LDR (47_load_store.md R211). -/
def execLdrUnder (c : Parameters) (rd rs : Reg) (imm : Word) (s : State) : Answer :=
  let ea := effectiveAddress rs imm s
  if denied (currentMode s) ea then raiseFatal (.dataPermission ea)
  else .next (writeResult c rd (loadWord s ea) (driveLoad ea (loadWord s ea) (selectRs rs s)))

/-- LDR (47_load_store.md R211) in the standard configuration. -/
def execLdr (rd rs : Reg) (imm : Word) (s : State) : Answer := execLdrUnder Config.standard rd rs imm s

/-- STR (47_load_store.md R212): the register stored is the one bits 11:9 name. -/
def execStr (rt rs : Reg) (imm : Word) (s : State) : Answer :=
  let ea := effectiveAddress rs imm s
  if denied (currentMode s) ea then raiseFatal (.dataPermission ea)
  else .next (advancePc (storeWord ea (readReg s rt)
    (driveStore ea (readReg s rt) (selectRt rt (selectRs rs s)))))

end Sys2Proof.Machine
end

