-- ==== Sys2Proof/Machine/Logical.lean ====
section
/-! DEFINITION. Logical class: AND, NOT, OR, XOR, ANDI (43_logical.md R170 to R175). -/

namespace Sys2Proof.Machine

/-- AND (43_logical.md R171). -/
def execAndUnder (c : Parameters) (rd rs rt : Reg) (s : State) : Answer :=
  .next (writeResult c rd (readReg s rs &&& readReg s rt) (selectRt rt (selectRs rs s)))

/-- AND (43_logical.md R171) in the standard configuration. -/
def execAnd (rd rs rt : Reg) (s : State) : Answer := execAndUnder Config.standard rd rs rt s

/-- NOT (43_logical.md R172): unary on `R[rs]`; bits 2:0 name no register. -/
def execNotUnder (c : Parameters) (rd rs : Reg) (s : State) : Answer :=
  .next (writeResult c rd (~~~(readReg s rs)) (selectRs rs s))

/-- NOT (43_logical.md R172) in the standard configuration. -/
def execNot (rd rs : Reg) (s : State) : Answer := execNotUnder Config.standard rd rs s

/-- OR (43_logical.md R173). -/
def execOrUnder (c : Parameters) (rd rs rt : Reg) (s : State) : Answer :=
  .next (writeResult c rd (readReg s rs ||| readReg s rt) (selectRt rt (selectRs rs s)))

/-- OR (43_logical.md R173) in the standard configuration. -/
def execOr (rd rs rt : Reg) (s : State) : Answer := execOrUnder Config.standard rd rs rt s

/-- XOR (43_logical.md R174). -/
def execXorUnder (c : Parameters) (rd rs rt : Reg) (s : State) : Answer :=
  .next (writeResult c rd (readReg s rs ^^^ readReg s rt) (selectRt rt (selectRs rs s)))

/-- XOR (43_logical.md R174) in the standard configuration. -/
def execXor (rd rs rt : Reg) (s : State) : Answer := execXorUnder Config.standard rd rs rt s

/-- ANDI (43_logical.md R175): the immediate is sign-extended. -/
def execAndiUnder (c : Parameters) (rd rs : Reg) (imm : Word) (s : State) : Answer :=
  .next (writeResult c rd (readReg s rs &&& imm) (selectRs rs s))

/-- ANDI (43_logical.md R175) in the standard configuration. -/
def execAndi (rd rs : Reg) (imm : Word) (s : State) : Answer := execAndiUnder Config.standard rd rs imm s

end Sys2Proof.Machine
end

