-- ==== Sys2Proof/Machine/ShiftMod.lean ====
section
/-! DEFINITION. Shift/Mod class: SLL, SRA, SRL, MOD (46_shift_mod.md R200 to R205). The amount is 0 to 15. -/

namespace Sys2Proof.Machine

/-- SLL (46_shift_mod.md R201): zeros enter at bit 0. -/
def execSllUnder (c : Parameters) (rd rs : Reg) (amt : BitVec 4) (s : State) : Answer :=
  .next (writeResult c rd (readReg s rs <<< amt.toNat) (selectRs rs s))

/-- SLL (46_shift_mod.md R201) in the standard configuration. -/
def execSll (rd rs : Reg) (amt : BitVec 4) (s : State) : Answer := execSllUnder Config.standard rd rs amt s

/-- SRA (46_shift_mod.md R202): bit 15 is copied into the vacated high bits. -/
def execSraUnder (c : Parameters) (rd rs : Reg) (amt : BitVec 4) (s : State) : Answer :=
  .next (writeResult c rd ((readReg s rs).sshiftRight amt.toNat) (selectRs rs s))

/-- SRA (46_shift_mod.md R202) in the standard configuration. -/
def execSra (rd rs : Reg) (amt : BitVec 4) (s : State) : Answer := execSraUnder Config.standard rd rs amt s

/-- SRL (46_shift_mod.md R203): zeros enter at bit 15. -/
def execSrlUnder (c : Parameters) (rd rs : Reg) (amt : BitVec 4) (s : State) : Answer :=
  .next (writeResult c rd (readReg s rs >>> amt.toNat) (selectRs rs s))

/-- SRL (46_shift_mod.md R203) in the standard configuration. -/
def execSrl (rd rs : Reg) (amt : BitVec 4) (s : State) : Answer := execSrlUnder Config.standard rd rs amt s

/-- MOD (46_shift_mod.md R204): `MOD_FN`; a zero divisor is no fatal condition. -/
def execModUnder (c : Parameters) (rd rs rt : Reg) (s : State) : Answer :=
  .next (writeResult c rd (c.modFn (readReg s rs) (readReg s rt)) (selectRt rt (selectRs rs s)))

/-- MOD (46_shift_mod.md R204) in the standard configuration. -/
def execMod (rd rs rt : Reg) (s : State) : Answer := execModUnder Config.standard rd rs rt s

end Sys2Proof.Machine
end

