-- ==== Sys2Proof/Machine/Trap.lean ====
section
/-! DEFINITION. Trap class (TRAP) and RTI class (RTI) (49_trap_rti.md R230 to R235): both execute in both modes. -/

namespace Sys2Proof.Machine

/-- TRAP (49_trap_rti.md R231). -/
def execTrapUnder (c : Parameters) (imm : BitVec 8) (s : State) : Answer := .next (enterTrap c imm s)

/-- TRAP (49_trap_rti.md R231) in the standard configuration. -/
def execTrap (imm : BitVec 8) (s : State) : Answer := execTrapUnder Config.standard imm s

/-- RTI (49_trap_rti.md R233). -/
def execRti (s : State) : Answer := .next (returnFromTrap s)

end Sys2Proof.Machine
end

