-- ==== Sys2Proof/Machine/Unassigned.lean ====
section
/-! DEFINITION. The three opcodes no class has (30_encoding.md R98, 60_exceptions.md R243): executing one is fatal and
changes nothing (R241). -/

namespace Sys2Proof.Machine

/-- The fatal condition of an unrecognized opcode, with the whole word (60_exceptions.md R240). -/
def unrecognized (op : BitVec 4) (low : BitVec 12) : Answer := raiseFatal (.illegalOpcode (op ++ low))

/-- ILLEGAL_3 (60_exceptions.md R243): a word of the first unassigned opcode. -/
def execIllegal3Under (c : Parameters) (low : BitVec 12) (_ : State) : Answer := unrecognized c.unassigned1 low

/-- ILLEGAL_3 (60_exceptions.md R243) in the standard configuration. -/
def execIllegal3 (low : BitVec 12) (s : State) : Answer := execIllegal3Under Config.standard low s

/-- ILLEGAL_B (60_exceptions.md R243): a word of the second unassigned opcode. -/
def execIllegalBUnder (c : Parameters) (low : BitVec 12) (_ : State) : Answer := unrecognized c.unassigned2 low

/-- ILLEGAL_B (60_exceptions.md R243) in the standard configuration. -/
def execIllegalB (low : BitVec 12) (s : State) : Answer := execIllegalBUnder Config.standard low s

/-- ILLEGAL_E (60_exceptions.md R243): a word of the third unassigned opcode. -/
def execIllegalEUnder (c : Parameters) (low : BitVec 12) (_ : State) : Answer := unrecognized c.unassigned3 low

/-- ILLEGAL_E (60_exceptions.md R243) in the standard configuration. -/
def execIllegalE (low : BitVec 12) (s : State) : Answer := execIllegalEUnder Config.standard low s

end Sys2Proof.Machine
end

