-- ==== Sys2Proof/Machine/Configured.lean ====
section
/-! DEFINITION. The dispatcher under any configuration (00_scope.md R5, 40_sequencer.md R126): the meanings `exec` calls, with
the parameters given. NOP, JMPR, JMP, STR and RTI rest on none. -/

namespace Sys2Proof.Machine

/-- The handler of the decoded instruction (40_sequencer.md R127) under a configuration. -/
def execUnder (c : Parameters) (i : Instr) (s : State) : Answer :=
  match i with
  | .nop => execNop s
  | .brp imm => execBrpUnder c imm s
  | .brz imm => execBrzUnder c imm s
  | .brzp imm => execBrzpUnder c imm s
  | .brn imm => execBrnUnder c imm s
  | .brnp imm => execBrnpUnder c imm s
  | .brnz imm => execBrnzUnder c imm s
  | .brnzp imm => execBrnzpUnder c imm s
  | .add rd rs rt => execAddUnder c rd rs rt s
  | .mul rd rs rt => execMulUnder c rd rs rt s
  | .sub rd rs rt => execSubUnder c rd rs rt s
  | .div rd rs rt => execDivUnder c rd rs rt s
  | .addi rd rs imm => execAddiUnder c rd rs imm s
  | .cmp rs rt => execCmpUnder c rs rt s
  | .cmpu rs rt => execCmpuUnder c rs rt s
  | .cmpi rs imm => execCmpiUnder c rs imm s
  | .cmpiu rs imm => execCmpiuUnder c rs imm s
  | .jsrr rs => execJsrrUnder c rs s
  | .jsr imm => execJsrUnder c imm s
  | .and rd rs rt => execAndUnder c rd rs rt s
  | .not rd rs => execNotUnder c rd rs s
  | .or rd rs rt => execOrUnder c rd rs rt s
  | .xor rd rs rt => execXorUnder c rd rs rt s
  | .andi rd rs imm => execAndiUnder c rd rs imm s
  | .ldr rd rs imm => execLdrUnder c rd rs imm s
  | .str rt rs imm => execStr rt rs imm s
  | .rti => execRti s
  | .const rd imm => execConstUnder c rd imm s
  | .sll rd rs amt => execSllUnder c rd rs amt s
  | .sra rd rs amt => execSraUnder c rd rs amt s
  | .srl rd rs amt => execSrlUnder c rd rs amt s
  | .mod rd rs rt => execModUnder c rd rs rt s
  | .jmpr rs => execJmpr rs s
  | .jmp imm => execJmp imm s
  | .hiconst rd imm => execHiconstUnder c rd imm s
  | .trap imm => execTrapUnder c imm s
  | .illegal3 low => execIllegal3Under c low s
  | .illegalB low => execIllegalBUnder c low s
  | .illegalE low => execIllegalEUnder c low s

end Sys2Proof.Machine
end

