-- ==== Sys2Proof/Machine/Dispatch.lean ====
section
/-! DEFINITION. The dispatcher (40_sequencer.md R126): one arm per instruction. -/

namespace Sys2Proof.Machine

-- The handler of the decoded instruction (40_sequencer.md R127), in the standard configuration.
def exec (i : Instr) (s : State) : Host.Outcome State Fault Refusal :=
  match i with
  | .nop => Sys2Proof.Machine.execNop s
  | .brp imm => Sys2Proof.Machine.execBrp imm s
  | .brz imm => Sys2Proof.Machine.execBrz imm s
  | .brzp imm => Sys2Proof.Machine.execBrzp imm s
  | .brn imm => Sys2Proof.Machine.execBrn imm s
  | .brnp imm => Sys2Proof.Machine.execBrnp imm s
  | .brnz imm => Sys2Proof.Machine.execBrnz imm s
  | .brnzp imm => Sys2Proof.Machine.execBrnzp imm s
  | .add rd rs rt => Sys2Proof.Machine.execAdd rd rs rt s
  | .mul rd rs rt => Sys2Proof.Machine.execMul rd rs rt s
  | .sub rd rs rt => Sys2Proof.Machine.execSub rd rs rt s
  | .div rd rs rt => Sys2Proof.Machine.execDiv rd rs rt s
  | .addi rd rs imm => Sys2Proof.Machine.execAddi rd rs imm s
  | .cmp rs rt => Sys2Proof.Machine.execCmp rs rt s
  | .cmpu rs rt => Sys2Proof.Machine.execCmpu rs rt s
  | .cmpi rs imm => Sys2Proof.Machine.execCmpi rs imm s
  | .cmpiu rs imm => Sys2Proof.Machine.execCmpiu rs imm s
  | .jsrr rs => Sys2Proof.Machine.execJsrr rs s
  | .jsr imm => Sys2Proof.Machine.execJsr imm s
  | .and rd rs rt => Sys2Proof.Machine.execAnd rd rs rt s
  | .not rd rs => Sys2Proof.Machine.execNot rd rs s
  | .or rd rs rt => Sys2Proof.Machine.execOr rd rs rt s
  | .xor rd rs rt => Sys2Proof.Machine.execXor rd rs rt s
  | .andi rd rs imm => Sys2Proof.Machine.execAndi rd rs imm s
  | .ldr rd rs imm => Sys2Proof.Machine.execLdr rd rs imm s
  | .str rt rs imm => Sys2Proof.Machine.execStr rt rs imm s
  | .rti => Sys2Proof.Machine.execRti s
  | .const rd imm => Sys2Proof.Machine.execConst rd imm s
  | .sll rd rs amt => Sys2Proof.Machine.execSll rd rs amt s
  | .sra rd rs amt => Sys2Proof.Machine.execSra rd rs amt s
  | .srl rd rs amt => Sys2Proof.Machine.execSrl rd rs amt s
  | .mod rd rs rt => Sys2Proof.Machine.execMod rd rs rt s
  | .jmpr rs => Sys2Proof.Machine.execJmpr rs s
  | .jmp imm => Sys2Proof.Machine.execJmp imm s
  | .hiconst rd imm => Sys2Proof.Machine.execHiconst rd imm s
  | .trap imm => Sys2Proof.Machine.execTrap imm s
  | .illegal3 low => Sys2Proof.Machine.execIllegal3 low s
  | .illegalB low => Sys2Proof.Machine.execIllegalB low s
  | .illegalE low => Sys2Proof.Machine.execIllegalE low s

end Sys2Proof.Machine
end

