-- ==== Sys2Proof/Machine/Sequencer.lean ====
section
/-! DEFINITION. One cycle of the sequencer (40_sequencer.md R122 to R128), the trace record (R134), the outcome (R131), the
state after a failed cycle (60_exceptions.md R241), the driving loop (R132) and the loader (70_reset_and_hazards.md R285). -/

namespace Sys2Proof.Machine

/-! ## One cycle -/

/-- The halt test (70_reset_and_hazards.md R290): on PC alone. -/
def halted (s : State) : Bool := s.pc == Config.haltPc

/-- `Denied(PSR[15], PC)` (40_sequencer.md R123). -/
def fetchDenied (s : State) : Bool := denied (currentMode s) s.pc

/-- `MemRead(PC, 1)` (40_sequencer.md R124). -/
def fetch (s : State) : Word := loadWord s s.pc

/-- The trace record (40_sequencer.md R134) of a cycle that began at `pc0` with the word `insn`, from the state the handler
left; the register value is `R[sig.rdSel]` read after the handler when a register was written (D25, log 8). -/
def traceRecord (pc0 insn : Word) (s : State) : TraceRecord :=
  { pc := pc0
    insn := insn
    regWE := s.sig.regWE
    rd := s.sig.rdSel
    regValue := if s.sig.regWE then readReg s (Reg.ofBits s.sig.rdSel) else 0
    nzpWE := s.sig.nzpWE
    nzp := s.sig.nzpCode
    dmemWE := s.sig.dmemWE
    dmemAddr := s.sig.dmemAddr
    dmemValue := s.sig.dmemValue }

/-- Step 6 (40_sequencer.md R122): the record goes to the trace sink. -/
def emitTrace (pc0 insn : Word) (s : State) : State := { s with trace := s.trace ++ [traceRecord pc0 insn s] }

/-- Steps 5 to 7 (40_sequencer.md R122): after a handler that succeeded the record is emitted and the signals are cleared;
a handler's failure passes on, with no record (R128). -/
def finishCycle (pc0 insn : Word) : Answer → Answer
  | .next s => .next (clearSignals (emitTrace pc0 insn s))
  | .fault cause => .fault cause
  | .refused why => .refused why

/-- Steps 1 to 7 (40_sequencer.md R122): permission check, fetch, decode, dispatch, trace, signal reset, with the decoder and
the dispatcher given. -/
def runCycleWith (dec : Word → Instr) (ex : Instr → State → Answer) (s : State) : Answer :=
  if fetchDenied s then raiseFatal (.fetchPermission s.pc)
  else finishCycle s.pc (fetch s) (ex (dec (fetch s)) s)

/-- The cycle in the standard configuration. -/
def runCycle (s : State) : Answer := runCycleWith decode exec s

/-- The cycle under a configuration (00_scope.md R5, R9). -/
def runCycleUnder (c : Parameters) (s : State) : Answer := runCycleWith (decodeUnder c) (execUnder c) s

/-- The halt test before the cycle (60_exceptions.md R247 order 0), then the cycle. A halted machine is frozen
(40_sequencer.md R133): no cycle is run, so nothing changes (D16; DESIGN CHOICE, log 9). -/
def haltTest (run : State → Answer) (s : State) : Answer := if halted s then .next s else run s

/-- The halt test, then the cycle, in the standard configuration. -/
def cycle (s : State) : Answer := haltTest runCycle s

/-- The halt test, then the cycle, under a configuration. -/
def cycleUnder (c : Parameters) (s : State) : Answer := haltTest (runCycleUnder c) s

/-! ## Outcome of a cycle -/

/-- The outcomes of a cycle (40_sequencer.md R131). -/
inductive CycleOutcome where
  | continue
  | haltPending
  | error (cause : Fault)
  /-- no counterpart in the spec: a meaning that is not there; no cycle answers it -/
  | refused (why : Refusal)
deriving DecidableEq, Repr

/-- The outcome of an answer (40_sequencer.md R131): `halt-pending` when the cycle left `PC = HALT_PC`. -/
def outcomeOf : Answer → CycleOutcome
  | .next s => if halted s then .haltPending else .continue
  | .fault cause => .error cause
  | .refused why => .refused why

/-- What the machine holds after an answer given at `s`: the next state, or, on a fatal condition, `s` itself with the
control signals cleared (60_exceptions.md R241; D17, D22, log 10). -/
def afterAnswer (s : State) : Answer → State
  | .next t => t
  | .fault _ => clearSignals s
  | .refused _ => clearSignals s

/-- The state after one cycle, successful or not. -/
def afterCycle (s : State) : State := afterAnswer s (cycle s)

/-- The state after one cycle under a configuration, successful or not. -/
def afterCycleUnder (c : Parameters) (s : State) : State := afterAnswer s (cycleUnder c s)

/-! ## The driving loop -/

/-- How a run stands (70_reset_and_hazards.md R289). -/
inductive RunResult where
  /-- `PC = HALT_PC` was found before a fetch: the one normal end -/
  | halted (s : State)
  /-- a cycle met a fatal condition; the state is the frozen one -/
  | failed (s : State) (cause : Fault)
  /-- no counterpart in the spec: a meaning that is not there; no run answers it -/
  | refused (s : State) (why : Refusal)
  /-- the cycles given were not enough to end the run -/
  | running (s : State)
deriving DecidableEq, Repr

/-- `Run` (40_sequencer.md R132), for at most `fuel` cycles: the halt test before every cycle, the first one included. -/
def runLoopWith (run : State → Answer) : Nat → State → RunResult
  | 0, s => if halted s then .halted s else .running s
  | n + 1, s =>
    if halted s then .halted s
    else match run s with
      | .next t => runLoopWith run n t
      | .fault cause => .failed (clearSignals s) cause
      | .refused why => .refused (clearSignals s) why

/-- `Run` in the standard configuration. -/
def runLoop (fuel : Nat) (s : State) : RunResult := runLoopWith runCycle fuel s

/-- `Run` under a configuration. -/
def runLoopUnder (c : Parameters) (fuel : Nat) (s : State) : RunResult := runLoopWith (runCycleUnder c) fuel s

/-! ## Reset and the loader -/

/-- The `reset` input (40_sequencer.md R121, 70_reset_and_hazards.md R282): whatever the state was, it becomes that of R280 (D24,
log 21). -/
def applyReset (_ : State) : State := State.reset

/-- A loaded segment: words for consecutive addresses from `start` (20_memory.md R52). -/
structure Segment where
  start : Nat
  words : List Word
deriving DecidableEq, Repr

/-- Writes words at consecutive addresses; fails past the 64K address space (20_memory.md R52). -/
def loadWords : Nat → List Word → Memory → Option Memory
  | _, [], m => some m
  | a, w :: ws, m => if a < Config.memWords then loadWords (a + 1) ws (m.write a w) else none

/-- The segments in file order, a later one overwriting an earlier one (70_reset_and_hazards.md R285). -/
def loadSegments : List Segment → Memory → Option Memory
  | [], m => some m
  | g :: gs, m => (loadWords g.start g.words m).bind (loadSegments gs)

/-- The start state of a run (70_reset_and_hazards.md R285): reset, then the loader's words, which touch memory only and pass
no permission gate; none where loading fails. -/
def startState (image : List Segment) : Option State :=
  (loadSegments image State.reset.mem).map (fun m => { State.reset with mem := m })

/-- The machine with one word stored where the next fetch reads, memory alone changed. -/
def placeAtPc (w : Word) (s : State) : State := storeWord s.pc w s

end Sys2Proof.Machine
end

