-- ==== Sys2Proof/Machine/Step.lean ====
section
/-! DEFINITION. One step: the cycle of Sequencer.lean, in the standard configuration and under any. -/

namespace Sys2Proof.Machine

/-- `Step` (40_sequencer.md R122), the halt test before it (R132). -/
def step (s : State) : Host.Outcome State Fault Refusal := cycle s

/-- `Step` under a configuration (00_scope.md R5, R9): deterministic given the state and the parameters. -/
def stepUnder (c : Parameters) (s : State) : Answer := cycleUnder c s

/-- `s` with the instruction whose bits are `w` stored at PC, where the next cycle fetches (40_sequencer.md R124); bits above
`nbits` are zero. It stands for the loader's write of that word (70_reset_and_hazards.md R285; log 15). -/
def State.withFetchWord (s : State) (nbits w : Nat) : State := placeAtPc (BitVec.ofNat 16 (w % 2 ^ nbits)) s

end Sys2Proof.Machine
end

