-- ==== Sys2Proof/Safety.lean ====
section
/-! DEFINITION. What counts as a good state and a safe run, and the terms the statements use. -/

namespace Sys2Proof.Machine

/-- The condition code is one of the three (10_state.md R30). -/
abbrev OneFlagSet (psr : Word) : Prop :=
  codeOf psr = Config.codeN ∨ codeOf psr = Config.codeZ ∨ codeOf psr = Config.codeP

/-- The invariants of 10_state.md R39 that are not already in the types: `PSR[14:3] = 0` (R28), exactly one flag set (R30),
every control signal zero at the start of a cycle (R37), and memory in its canonical form. -/
structure State.Inv (s : State) : Prop where
  reservedZero : s.psr.extractLsb' 3 12 = 0
  oneFlag : OneFlagSet s.psr
  signalsZero : s.sig = Signals.zero
  memoryWf : s.mem.wf

/-- The machine under a configuration (00_scope.md R5), for claims about its runs; `Sys2Proof.core` is the standard one. -/
def coreUnder (c : Parameters) : Host.Core :=
  { State := State, Fault := Fault, Refusal := Refusal, step := stepUnder c, reset := State.reset }

/-- The host may ask for a cycle (40_sequencer.md R132). -/
abbrev MayRun (s : State) : Prop := halted s = false

/-- A cycle of `s` is not stopped by the fetch check (40_sequencer.md R123). -/
abbrev FetchAllowed (s : State) : Prop := fetchDenied s = false

/-- A step of `s` meets no fatal condition and no refusal. -/
def StepSafe (s : State) : Prop := ∃ t, step s = .next t

/-- `n` cycles from `s` meet no fatal condition (60_exceptions.md R240). -/
def SafeFor (n : Nat) (s : State) : Prop := ∃ t, Host.Core.run Sys2Proof.core n s = .next t

/-- A run that ends the one normal way (70_reset_and_hazards.md R289). -/
def Halts (s : State) : Prop := ∃ n t, runLoop n s = .halted t

/-! ## What changes and what does not, in the terms of the statements -/

/-- No register differs. -/
def SameRegisters (s t : State) : Prop := ∀ q, readReg t q = readReg s q

/-- Register `rd` holds `v` and no other register differs. -/
def OnlyRegister (rd : Reg) (v : Word) (s t : State) : Prop :=
  readReg t rd = v ∧ ∀ q, q ≠ rd → readReg t q = readReg s q

/-- No word of memory differs. -/
def SameMemory (s t : State) : Prop := ∀ a, loadWord t a = loadWord s a

/-- The word at `a` is `v` and no other word of memory differs. -/
def OnlyWord (a v : Word) (s t : State) : Prop :=
  loadWord t a = v ∧ ∀ b, b ≠ a → loadWord t b = loadWord s b

/-- The condition code by the sign of an integer: N = bit 2, Z = bit 1, P = bit 0 (10_state.md R29, R31). -/
def signCode (n : Int) : BitVec 3 := if n < 0 then 0b100 else if n = 0 then 0b010 else 0b001

/-- `PSR[2:0]` is the code of `n` and `PSR[15:3]` does not differ (10_state.md R31). -/
def FlagsOf (n : Int) (s t : State) : Prop :=
  codeOf t.psr = signCode n ∧ t.psr.extractLsb' 3 13 = s.psr.extractLsb' 3 13

/-- The whole effect of a computing instruction but for the control signals: `v` in `R[rd]`, the flags of `v`, PC + 1, and
nothing else. -/
def Computes (rd : Reg) (v : Word) (s t : State) : Prop :=
  OnlyRegister rd v s t ∧ FlagsOf v.toInt s t ∧ t.pc = s.pc + 1 ∧ SameMemory s t ∧ t.trace = s.trace

/-- The whole effect of a comparison but for the control signals: the flags of the exact difference, PC + 1, and nothing
else. -/
def Compares (difference : Int) (s t : State) : Prop :=
  SameRegisters s t ∧ FlagsOf difference s t ∧ t.pc = s.pc + 1 ∧ SameMemory s t ∧ t.trace = s.trace

/-- The whole effect of a transfer that only sets PC, but for the control signals. -/
def GoesTo (target : Word) (s t : State) : Prop :=
  t.pc = target ∧ SameRegisters s t ∧ t.psr = s.psr ∧ SameMemory s t ∧ t.trace = s.trace

/-- The register an instruction writes (10_state.md R21). -/
def writtenReg : Instr → Option Reg
  | .add rd _ _ | .mul rd _ _ | .sub rd _ _ | .div rd _ _ | .addi rd _ _ => some rd
  | .and rd _ _ | .not rd _ | .or rd _ _ | .xor rd _ _ | .andi rd _ _ => some rd
  | .sll rd _ _ | .sra rd _ _ | .srl rd _ _ | .mod rd _ _ => some rd
  | .ldr rd _ _ | .const rd _ | .hiconst rd _ => some rd
  | .jsrr _ | .jsr _ | .trap _ => some .r7
  | .cmp _ _ | .cmpu _ _ | .cmpi _ _ | .cmpiu _ _ => none
  | .nop | .brp _ | .brz _ | .brzp _ | .brn _ | .brnp _ | .brnz _ | .brnzp _ => none
  | .jmpr _ | .jmp _ | .str _ _ _ | .rti => none
  | .illegal3 _ | .illegalB _ | .illegalE _ => none

/-- The registers an instruction reads (10_state.md R21). -/
def readRegs : Instr → List Reg
  | .add _ rs rt | .mul _ rs rt | .sub _ rs rt | .div _ rs rt => [rs, rt]
  | .and _ rs rt | .or _ rs rt | .xor _ rs rt | .mod _ rs rt => [rs, rt]
  | .cmp rs rt | .cmpu rs rt => [rs, rt]
  | .addi _ rs _ | .not _ rs | .andi _ rs _ => [rs]
  | .sll _ rs _ | .sra _ rs _ | .srl _ rs _ | .ldr _ rs _ => [rs]
  | .cmpi rs _ | .cmpiu rs _ | .jmpr rs | .jsrr rs => [rs]
  | .str rt rs _ => [rs, rt]
  | .hiconst rd _ => [rd]
  | .rti => [.r7]
  | .nop | .brp _ | .brz _ | .brzp _ | .brn _ | .brnp _ | .brnz _ | .brnzp _ => []
  | .jmp _ | .jsr _ | .const _ _ | .trap _ => []
  | .illegal3 _ | .illegalB _ | .illegalE _ => []

/-- The address an instruction stores to, if it stores (47_load_store.md R212): STR alone does. -/
def storedAddress (i : Instr) (s : State) : Option Word :=
  match i with
  | .str _ rs imm => some (effectiveAddress rs imm s)
  | _ => none

/-- The integer whose sign the flags take, for an instruction that runs `SetNZP` (10_state.md R32); none where the flags
stay. -/
def flagSource (i : Instr) (s t : State) : Option Int :=
  match i with
  | .cmp rs rt => some ((readReg s rs).toInt - (readReg s rt).toInt)
  | .cmpu rs rt => some ((readReg s rs).toNat - (readReg s rt).toNat)
  | .cmpi rs imm => some ((readReg s rs).toInt - imm.toInt)
  | .cmpiu rs imm => some ((readReg s rs).toNat - imm.toNat)
  | .jsrr _ | .jsr _ => none
  | other => (writtenReg other).map (fun rd => (readReg t rd).toInt)

/-- The new PC of an instruction that completes (10_state.md R25). -/
def nextPc (i : Instr) (s : State) : Word :=
  match i with
  | .brp imm => if s.psr.getLsbD 0 then s.pc + 1 + imm else s.pc + 1
  | .brz imm => if s.psr.getLsbD 1 then s.pc + 1 + imm else s.pc + 1
  | .brzp imm => if s.psr.getLsbD 1 || s.psr.getLsbD 0 then s.pc + 1 + imm else s.pc + 1
  | .brn imm => if s.psr.getLsbD 2 then s.pc + 1 + imm else s.pc + 1
  | .brnp imm => if s.psr.getLsbD 2 || s.psr.getLsbD 0 then s.pc + 1 + imm else s.pc + 1
  | .brnz imm => if s.psr.getLsbD 2 || s.psr.getLsbD 1 then s.pc + 1 + imm else s.pc + 1
  | .brnzp imm =>
    if s.psr.getLsbD 2 || s.psr.getLsbD 1 || s.psr.getLsbD 0 then s.pc + 1 + imm else s.pc + 1
  | .jmpr rs => readReg s rs
  | .jmp imm => s.pc + 1 + imm
  | .jsrr rs => if rs = .r7 then s.pc + 1 else readReg s rs
  | .jsr imm => (s.pc &&& 0x8000) ||| (imm.setWidth 16 <<< 4)
  | .trap imm => 0x8000 ||| imm.setWidth 16
  | .rti => readReg s .r7
  | _ => s.pc + 1

/-- The mode after an instruction that completes (49_trap_rti.md R230). -/
def nextMode (i : Instr) (s : State) : Mode :=
  match i with
  | .trap _ => .supervisor
  | .rti => .user
  | _ => currentMode s

/-- The control signals an instruction drives, all others zero (40_sequencer.md R130), where the handler goes from `s` to
`t`. -/
def drivenSignals (i : Instr) (s t : State) : Signals :=
  let code := codeOf t.psr
  let result (rd : Reg) : Signals :=
    { Signals.zero with regWE := true, rdSel := rd.toBits, nzpWE := true, nzpCode := code }
  let compared : Signals := { Signals.zero with nzpWE := true, nzpCode := code }
  let linked : Signals := { Signals.zero with regWE := true, rdSel := 7 }
  match i with
  | .add rd rs rt | .mul rd rs rt | .sub rd rs rt | .div rd rs rt
  | .and rd rs rt | .or rd rs rt | .xor rd rs rt | .mod rd rs rt =>
    { result rd with rsSel := rs.toBits, rtSel := rt.toBits }
  | .addi rd rs _ | .not rd rs | .andi rd rs _ | .sll rd rs _ | .sra rd rs _ | .srl rd rs _ =>
    { result rd with rsSel := rs.toBits }
  | .cmp rs rt | .cmpu rs rt => { compared with rsSel := rs.toBits, rtSel := rt.toBits }
  | .cmpi rs _ | .cmpiu rs _ => { compared with rsSel := rs.toBits }
  | .jmpr rs => { Signals.zero with rsSel := rs.toBits }
  | .jsrr rs => { linked with rsSel := rs.toBits }
  | .jsr _ => linked
  | .ldr rd rs imm =>
    { result rd with
      rsSel := rs.toBits, dmemAddr := effectiveAddress rs imm s, dmemValue := loadWord s (effectiveAddress rs imm s) }
  | .str rt rs imm =>
    { Signals.zero with
      rsSel := rs.toBits, rtSel := rt.toBits, dmemWE := true, dmemAddr := effectiveAddress rs imm s
      dmemValue := readReg s rt }
  | .const rd _ | .hiconst rd _ => result rd
  | .trap _ => { linked with nzpWE := true, nzpCode := code }
  | .nop | .brp _ | .brz _ | .brzp _ | .brn _ | .brnp _ | .brnz _ | .brnzp _ | .jmp _ | .rti
  | .illegal3 _ | .illegalB _ | .illegalE _ => Signals.zero

/-- The record of a cycle whose instruction drives no control signal (40_sequencer.md R130, R134). -/
def quietRecord (pc insn : Word) : TraceRecord :=
  { pc := pc, insn := insn, regWE := false, rd := 0, regValue := 0, nzpWE := false, nzp := 0, dmemWE := false
    dmemAddr := 0, dmemValue := 0 }

/-- The segment has a word for the address (20_memory.md R52). -/
def Covers (g : Segment) (a : Nat) : Prop := g.start ≤ a ∧ a < g.start + g.words.length

/-- `memory[a] <- image(a)` for every address the segments cover, a later segment over an earlier one (70_reset_and_hazards.md
R285): a segment's word stands where no segment after it covers the address, and an address that none covers reads as
before. -/
def ImageIn (image : List Segment) (before after : Memory) : Prop :=
  (∀ earlier g later k w, image = earlier ++ g :: later → g.words[k]? = some w →
    (∀ h ∈ later, ¬ Covers h (g.start + k)) → after.read (g.start + k) = w) ∧
  (∀ a, (∀ g ∈ image, ¬ Covers g a) → after.read a = before.read a)

end Sys2Proof.Machine
end

