-- ==== Sys2Proof/Certificates/Slice0/Obligations.lean ====
section
/-! DEFINITION. The statements for the provers. A statement that rests on a decision of 92_eei_decisions.md, or on a choice
of the model, says so and names it. -/

open Sys2Proof Sys2Proof.Machine

/-! ## Encoding -/

/-- Decoding the word the encoder writes for a well-formed instruction gives the instruction back (30_encoding.md R103, R104).
Rests on the opcode and sub-op numbers, decisions D1 to D6 (log 1). -/
def Obligations.DecodeEncodeRoundTrip : Prop :=
  ∀ i, WellFormed i = true → decode (encode i) = i

/-- Encoding what a word decodes to gives the word back with its ignored bits zero: every other bit of every word is kept
(30_encoding.md R83, R104). Rests on D1 to D6, D18 (log 1, log 11). -/
def Obligations.EncodeDecodeClearsOnlyIgnoredBits : Prop :=
  ∀ w, encode (decode w) = w &&& ~~~ignoredBits (decode w)

/-- Every word matches the row of the instruction it decodes to, and no other row (30_encoding.md R97, R98). Rests on D1 to
D6. -/
def Obligations.WordMatchesExactlyItsRow : Prop :=
  ∀ w, w &&& rowMask (decode w) = rowMatch (decode w) ∧
    ∀ j, w &&& rowMask j = rowMatch j → rowMask j = rowMask (decode w) ∧ rowMatch j = rowMatch (decode w)

/-- What a word decodes to is well formed (30_encoding.md R103, R104): the decoder is total and no operand falls outside its
field. -/
def Obligations.DecodedInstructionIsWellFormed : Prop :=
  ∀ w, WellFormed (decode w) = true

/-- Words written out bit by bit from the patterns of 30_encoding.md R97 decode to the instructions they stand for. Rests on D1
to D6. -/
def Obligations.SampleWordsDecode : Prop :=
  decode 0b0001_001_010_000_011 = .add .r1 .r2 .r3 ∧
  decode 0b0001_001_010_1_11111 = .addi .r1 .r2 0xFFFF ∧
  decode 0b0010_001_10_1000000 = .cmpi .r1 0xFFC0 ∧
  decode 0b0101_001_010_001_111 = .not .r1 .r2 ∧
  decode 0b0000_101_000000101 = .brnp 5 ∧
  decode 0b0100_1_00000110000 = .jsr 0x030 ∧
  decode 0b1010_001_010_01_0100 = .sra .r1 .r2 4 ∧
  decode 0b0110_001_010_100000 = .ldr .r1 .r2 0xFFE0 ∧
  decode 0b0111_001_010_000011 = .str .r1 .r2 3 ∧
  decode 0b1001_001_100000000 = .const .r1 0xFF00 ∧
  decode 0b1101_001_1_00010010 = .hiconst .r1 0x12 ∧
  decode 0b1111_1010_00100101 = .trap 0x25 ∧
  decode 0b1000_101010111100 = .rti ∧
  decode 0b1100_0_11_011_111111 = .jmpr .r3 ∧
  decode 0b1011_111111111111 = .illegalB 0xFFF

/-- `sext_N` for the five widths (30_encoding.md R84): a negative field gets the mask of its width OR-ed in, any other field
stays; the low bits are the field and the value is its two's-complement reading, in the range of the table. -/
def Obligations.SignExtensionReadsTwosComplement : Prop :=
  (∀ f : BitVec 5, sext 5 f = (if f.getLsbD 4 then f.setWidth 16 ||| 0xFFE0 else f.setWidth 16) ∧
    (sext 5 f).toInt = f.toInt ∧ -16 ≤ (sext 5 f).toInt ∧ (sext 5 f).toInt ≤ 15) ∧
  (∀ f : BitVec 6, sext 6 f = (if f.getLsbD 5 then f.setWidth 16 ||| 0xFFC0 else f.setWidth 16) ∧
    (sext 6 f).toInt = f.toInt ∧ -32 ≤ (sext 6 f).toInt ∧ (sext 6 f).toInt ≤ 31) ∧
  (∀ f : BitVec 7, sext 7 f = (if f.getLsbD 6 then f.setWidth 16 ||| 0xFF80 else f.setWidth 16) ∧
    (sext 7 f).toInt = f.toInt ∧ -64 ≤ (sext 7 f).toInt ∧ (sext 7 f).toInt ≤ 63) ∧
  (∀ f : BitVec 9, sext 9 f = (if f.getLsbD 8 then f.setWidth 16 ||| 0xFE00 else f.setWidth 16) ∧
    (sext 9 f).toInt = f.toInt ∧ -256 ≤ (sext 9 f).toInt ∧ (sext 9 f).toInt ≤ 255) ∧
  (∀ f : BitVec 11, sext 11 f = (if f.getLsbD 10 then f.setWidth 16 ||| 0xF800 else f.setWidth 16) ∧
    (sext 11 f).toInt = f.toInt ∧ -1024 ≤ (sext 11 f).toInt ∧ (sext 11 f).toInt ≤ 1023)

/-! ## Reset and the invariants -/

/-- The reset state, element by element (10_state.md R38): supervisor mode and the flag Z among them. -/
def Obligations.ResetStateIsAsStated : Prop :=
  (∀ r, readReg State.reset r = 0) ∧ State.reset.pc = 0x8200 ∧ State.reset.psr = 0x8002 ∧
  (∀ a, loadWord State.reset a = 0) ∧ State.reset.sig = Signals.zero ∧
  currentMode State.reset = .supervisor ∧
  State.reset.psr.getLsbD 2 = false ∧ State.reset.psr.getLsbD 1 = true ∧ State.reset.psr.getLsbD 0 = false ∧
  State.reset.psr.extractLsb' 3 12 = 0

/-- The reset state meets the invariant (10_state.md R28, R30, R37, R39; the memory's canonical form is the model's, log
13). -/
def Obligations.ResetMeetsInvariant : Prop := State.reset.Inv

/-- Every step keeps the invariant, from every state that has it, reachable or not: `PSR[14:3] = 0`, exactly one flag set, every
control signal zero between cycles, memory canonical (10_state.md R39; the memory's form is the model's, log 13). -/
def Obligations.StepKeepsInvariant : Prop :=
  ∀ s t, s.Inv → step s = .next t → t.Inv

/-- Two memories in canonical form that read the same at every address are the same list. The form is the model's own choice
(log 13), for 10_state.md R34's array. -/
def Obligations.CanonicalMemoriesReadingAlikeAreEqual : Prop :=
  ∀ m n : Memory, m.wf → n.wf → (∀ a : Nat, m.read a = n.read a) → m = n

/-! ## The cycle -/

/-- A cycle that is neither halted nor denied runs exactly the instruction its word decodes to: a handler's next state is the
step's, with the signals cleared and the trace record appended; a handler's failure is the step's (40_sequencer.md R122 steps 2
to 7). That the state holds the trace is the model's choice (log 14). -/
def Obligations.StepRunsDecodedInstruction : Prop :=
  ∀ s i, MayRun s → FetchAllowed s → decode (loadWord s s.pc) = i →
    (∀ u, exec i s = .next u → step s = .next
      { u with sig := Signals.zero, trace := u.trace ++ [traceRecord s.pc (loadWord s s.pc) u] }) ∧
    (∀ f, exec i s = .fault f → step s = .fault f)

/-- At the halt sentinel no cycle is run and nothing changes, whatever the mode and the word there (40_sequencer.md R133). That
`step` then answers the same state is the model's choice (D16, log 9). -/
def Obligations.HaltedMachineIsFrozen : Prop :=
  ∀ s, s.pc = 0x80FF → step s = .next s ∧ outcomeOf (step s) = .haltPending

/-- The fetch check (40_sequencer.md R123): where the host may ask for a cycle, a denied PC ends it at once with
`FetchPermission`, whatever word lies there; R, PC, PSR and memory keep their values, the signals are clear, no record is
produced. -/
def Obligations.FetchCheckEndsTheCycle : Prop :=
  ∀ s, MayRun s → denied (currentMode s) s.pc = true →
    step s = .fault (.fetchPermission s.pc) ∧ afterCycle s = { s with sig := Signals.zero }

/-- The order of the tests (60_exceptions.md R247): at the halt sentinel the run ends as halted with no cycle, in either mode;
otherwise the fetch check, the opcode, then for a load or store the data check: a step faults exactly when one of these three is
met with none before it, and reports that one. -/
def Obligations.FatalConditionsInOrder : Prop :=
  (∀ n s, s.pc = 0x80FF → runLoop n s = .halted s) ∧
  ∀ s f, step s = .fault f ↔
    s.pc ≠ 0x80FF ∧
    ((denied (currentMode s) s.pc = true ∧ f = .fetchPermission s.pc) ∨
     (denied (currentMode s) s.pc = false ∧ Config.classOf (field 12 4 (fetch s)) = none ∧
        f = .illegalOpcode (fetch s)) ∨
     (denied (currentMode s) s.pc = false ∧
        (Config.classOf (field 12 4 (fetch s)) = some .load ∨ Config.classOf (field 12 4 (fetch s)) = some .store) ∧
        (let ea := readReg s (regField 6 (fetch s)) + sext 6 (field 0 6 (fetch s))
         denied (currentMode s) ea = true ∧ f = .dataPermission ea)))

/-- Which words are unrecognized (60_exceptions.md R243): those whose top four bits are 0x3, 0xB or 0xE, by D1, D19 (log 1, log
12); in any proper configuration those whose top four bits no class has, and the fatal condition reports the word fetched. -/
def Obligations.UnrecognizedWordsAreThreeOpcodes : Prop :=
  (∀ s, MayRun s → FetchAllowed s →
    ((fetch s).toNat / 4096 ∈ [0x3, 0xB, 0xE] → step s = .fault (.illegalOpcode (fetch s))) ∧
    ((fetch s).toNat / 4096 ∉ [0x3, 0xB, 0xE] → ∀ w, step s ≠ .fault (.illegalOpcode w))) ∧
  ∀ c : Parameters, c.Proper → ∀ s, MayRun s → FetchAllowed s →
    ((∀ k, c.opcodeOf k ≠ field 12 4 (fetch s)) → stepUnder c s = .fault (.illegalOpcode (fetch s))) ∧
    ((∃ k, c.opcodeOf k = field 12 4 (fetch s)) → ∀ w, stepUnder c s ≠ .fault (.illegalOpcode w))

/-- After a failed cycle R, PC, PSR, memory and the trace are as before it and the signals are clear (60_exceptions.md R241; D17,
D22, log 10). -/
def Obligations.FailedCycleChangesNothing : Prop :=
  ∀ s f, step s = .fault f →
    outcomeOf (step s) = .error f ∧
    (afterCycle s).regs = s.regs ∧ (afterCycle s).pc = s.pc ∧ (afterCycle s).psr = s.psr ∧
    (afterCycle s).mem = s.mem ∧ (afterCycle s).trace = s.trace ∧ (afterCycle s).sig = Signals.zero

/-- Every instruction at every state completes or meets a fatal condition; nothing is refused (00_scope.md R10; the halted state
by log 9). -/
def Obligations.EveryStepCompletesOrIsFatal : Prop :=
  (∀ i s r, exec i s ≠ .refused r) ∧ (∀ s, (∃ t, step s = .next t) ∨ (∃ f, step s = .fault f))

/-! ## Protection -/

/-- The permission predicate (20_memory.md R58), with the boundary addresses of its table. -/
def Obligations.PermissionPredicate : Prop :=
  (∀ a, denied .user a = true ↔ 0x7FFF < a.toNat ∧ a.toNat < 0xFFFF) ∧
  (∀ a, denied .supervisor a = true ↔ a.toNat ≤ 0x7FFF) ∧
  denied .user 0x0000 = false ∧ denied .supervisor 0x0000 = true ∧
  denied .user 0x7FFF = false ∧ denied .supervisor 0x7FFF = true ∧
  denied .user 0x8000 = true ∧ denied .supervisor 0x8000 = false ∧
  denied .user 0x9000 = true ∧ denied .supervisor 0x9000 = false ∧
  denied .user 0xFFFE = true ∧ denied .supervisor 0xFFFE = false ∧
  denied .user 0xFFFF = false ∧ denied .supervisor 0xFFFF = false

/-- The document's permission tests on the two memory instructions (47_load_store.md R214): which of the addresses 0x9000,
0x0000, 0xFFFF a load or store completes at, in each mode. -/
def Obligations.LoadStorePermissionTests : Prop :=
  ∀ s i rs imm, (∃ r, i = .ldr r rs imm ∨ i = .str r rs imm) →
    (effectiveAddress rs imm s = 0x9000 →
      (currentMode s = .user → exec i s = .fault (.dataPermission 0x9000)) ∧
      (currentMode s = .supervisor → ∃ t, exec i s = .next t)) ∧
    (effectiveAddress rs imm s = 0x0000 →
      (currentMode s = .user → ∃ t, exec i s = .next t) ∧
      (currentMode s = .supervisor → exec i s = .fault (.dataPermission 0x0000))) ∧
    (effectiveAddress rs imm s = 0xFFFF → ∃ t, exec i s = .next t)

/-- Reset starts in supervisor mode, PSR = 0x8002; TRAP goes to supervisor and RTI to user, from either mode, and both always
complete; no other instruction changes the mode, and no failed cycle does; no instruction is refused for want of privilege: one
that makes no data access completes or not whatever PSR holds (49_trap_rti.md R230). -/
def Obligations.OnlyTrapAndRtiChangeMode : Prop :=
  currentMode State.reset = .supervisor ∧ State.reset.psr = 0x8002 ∧
  (∀ imm s, ∃ t, exec (.trap imm) s = .next t ∧ currentMode t = .supervisor) ∧
  (∀ s, ∃ t, exec .rti s = .next t ∧ currentMode t = .user) ∧
  (∀ i s t, exec i s = .next t → currentMode t = nextMode i s) ∧
  (∀ s f, step s = .fault f → currentMode (afterCycle s) = currentMode s) ∧
  (∀ i s psr, (∀ r rs imm, i ≠ .ldr r rs imm ∧ i ≠ .str r rs imm) →
    ((∃ t, exec i s = .next t) ↔ ∃ t, exec i { s with psr := psr } = .next t))

/-- A step changes no word that the mode it began in is denied: user code cannot change 0x8000 to 0xFFFE, supervisor code cannot
change the lower half (20_memory.md R58, R60, R66). -/
def Obligations.DeniedMemoryIsNeverWritten : Prop :=
  ∀ s t, step s = .next t → ∀ a, denied (currentMode s) a = true → loadWord t a = loadWord s a

/-- A step learns nothing from the words that the mode it began in is denied: two states that differ only there step alike, and
the next states differ only there (20_memory.md R57, R58, R60; 60_exceptions.md R252). -/
def Obligations.DeniedMemoryIsNeverRead : Prop :=
  ∀ (s : State) (m : Memory), (∀ a : Word, denied (currentMode s) a = false → m.read a.toNat = loadWord s a) →
    (∀ f, step s = .fault f → step { s with mem := m } = .fault f) ∧
    (∀ t, step s = .next t → ∃ t', step { s with mem := m } = .next t' ∧
      t'.regs = t.regs ∧ t'.pc = t.pc ∧ t'.psr = t.psr ∧ t'.sig = t.sig ∧ t'.trace = t.trace ∧
      ∀ a, (denied (currentMode s) a = false → loadWord t' a = loadWord t a) ∧
        (denied (currentMode s) a = true → loadWord t' a = m.read a.toNat))

/-! ## What every instruction may change -/

/-- The frame of every instruction (40_sequencer.md R127, 10_state.md R21, R28): no register but the one its row names, no flag but
for a class that sets them, `PSR[14:3]` never, no word of memory but the one STR stores to, never the trace. -/
def Obligations.HandlerFrame : Prop :=
  ∀ i s t, exec i s = .next t →
    (∀ q, writtenReg i ≠ some q → readReg t q = readReg s q) ∧
    (∀ a, storedAddress i s ≠ some a → loadWord t a = loadWord s a) ∧
    t.psr.extractLsb' 3 12 = s.psr.extractLsb' 3 12 ∧
    (flagSource i s t = none → codeOf t.psr = codeOf s.psr) ∧
    t.trace = s.trace

/-- Where each instruction leaves PC (10_state.md R25), and that a failed cycle leaves it alone. The JSR row rests on D11, the
JSRR row on D12 (log 4, log 5), the branch rows on D6, D7. -/
def Obligations.PcAfterEachInstruction : Prop :=
  (∀ i s t, exec i s = .next t → t.pc = nextPc i s) ∧ (∀ s f, step s = .fault f → (afterCycle s).pc = s.pc)

/-- Which instructions set the flags and from which value (10_state.md R32); every other leaves them. The comparisons rest on
D10 (log 6), TRAP on D13 (log 7), the code's bits on D7 (log 2). -/
def Obligations.FlagsAfterEachInstruction : Prop :=
  ∀ i s t, exec i s = .next t →
    (∀ n, flagSource i s t = some n → codeOf t.psr = signCode n) ∧
    (flagSource i s t = none → codeOf t.psr = codeOf s.psr)

/-- A register an instruction does not read cannot affect it (10_state.md R21): with any other value in it, the instruction
ends the same way, with the same state but for that register, and with the very same state if it writes it. -/
def Obligations.UnreadRegistersDoNotMatter : Prop :=
  ∀ i s q v, q ∉ readRegs i →
    (∀ f, exec i s = .fault f → exec i { s with regs := s.regs.set q v } = .fault f) ∧
    (∀ t, exec i s = .next t → exec i { s with regs := s.regs.set q v } =
      .next (if writtenReg i = some q then t else { t with regs := t.regs.set q v }))

/-- Every control signal after a handler that began with all of them zero (40_sequencer.md R130; D14, D15, log 8). -/
def Obligations.ControlSignalsOfEachInstruction : Prop :=
  ∀ i s t, s.sig = Signals.zero → exec i s = .next t → t.sig = drivenSignals i s t

/-! ## Results, family by family: each completes at every state that meets the hypotheses -/

/-- ADD, MUL, SUB, ADDI complete at every state, with the wrapped result (41_arithmetic.md R151, R152, R153, R155). -/
def Obligations.AddMulSubAddiResults : Prop :=
  ∀ s rd rs rt imm,
    (∃ t v, exec (.add rd rs rt) s = .next t ∧ Computes rd v s t ∧
      v.toNat = ((readReg s rs).toNat + (readReg s rt).toNat) % 65536) ∧
    (∃ t v, exec (.mul rd rs rt) s = .next t ∧ Computes rd v s t ∧
      v.toNat = ((readReg s rs).toNat * (readReg s rt).toNat) % 65536) ∧
    (∃ t v, exec (.sub rd rs rt) s = .next t ∧ Computes rd v s t ∧
      (v.toNat : Int) = ((readReg s rs).toNat - (readReg s rt).toNat : Int) % 65536) ∧
    (∃ t v, exec (.addi rd rs imm) s = .next t ∧ Computes rd v s t ∧
      v.toNat = ((readReg s rs).toNat + imm.toNat) % 65536)

/-- DIV and MOD complete at every state, a zero divisor included (41_arithmetic.md R154, 46_shift_mod.md R204). The unsigned
reading and the zero result rest on D8, D9 (log 3). -/
def Obligations.DivModResults : Prop :=
  ∀ s rd rs rt,
    (∃ t v, exec (.div rd rs rt) s = .next t ∧ Computes rd v s t ∧ v = Config.divFn (readReg s rs) (readReg s rt) ∧
      v.toNat = (if (readReg s rt).toNat = 0 then 0 else (readReg s rs).toNat / (readReg s rt).toNat)) ∧
    (∃ t v, exec (.mod rd rs rt) s = .next t ∧ Computes rd v s t ∧ v = Config.modFn (readReg s rs) (readReg s rt) ∧
      v.toNat = (if (readReg s rt).toNat = 0 then 0 else (readReg s rs).toNat % (readReg s rt).toNat))

/-- For a divisor that is not zero, quotient and remainder rebuild the dividend, and with both operands below 0x8000 they are the
signed ones as well (41_arithmetic.md R154, 46_shift_mod.md R204). Rests on D8 (log 3). -/
def Obligations.QuotientAndRemainderAgree : Prop :=
  ∀ a b : Word, b.toNat ≠ 0 →
    a.toNat = (Config.divFn a b).toNat * b.toNat + (Config.modFn a b).toNat ∧
    (Config.modFn a b).toNat < b.toNat ∧
    (a.toNat < 0x8000 → b.toNat < 0x8000 →
      (Config.divFn a b).toInt = a.toInt.tdiv b.toInt ∧ (Config.modFn a b).toInt = a.toInt.tmod b.toInt)

/-- The four comparisons complete at every state; the flags are the sign of the exact difference, and nothing but the flags and PC
changes (42_compare.md R160 to R164). Exactness rests on D10, the operand order on D21 (log 6). -/
def Obligations.CompareResults : Prop :=
  ∀ s rs rt imm,
    (∃ t, exec (.cmp rs rt) s = .next t ∧ Compares ((readReg s rs).toInt - (readReg s rt).toInt) s t) ∧
    (∃ t, exec (.cmpu rs rt) s = .next t ∧ Compares ((readReg s rs).toNat - (readReg s rt).toNat) s t) ∧
    (∃ t, exec (.cmpi rs imm) s = .next t ∧ Compares ((readReg s rs).toInt - imm.toInt) s t) ∧
    (∃ t, exec (.cmpiu rs imm) s = .next t ∧ Compares ((readReg s rs).toNat - imm.toNat) s t)

/-- AND, NOT, OR, XOR, ANDI complete at every state, with the bitwise result (43_logical.md R171 to R175). -/
def Obligations.LogicalResults : Prop :=
  ∀ s rd rs rt imm,
    (∃ t v, exec (.and rd rs rt) s = .next t ∧ Computes rd v s t ∧
      ∀ i, v.getLsbD i = ((readReg s rs).getLsbD i && (readReg s rt).getLsbD i)) ∧
    (∃ t v, exec (.not rd rs) s = .next t ∧ Computes rd v s t ∧ v.toNat = 0xFFFF - (readReg s rs).toNat) ∧
    (∃ t v, exec (.or rd rs rt) s = .next t ∧ Computes rd v s t ∧
      ∀ i, v.getLsbD i = ((readReg s rs).getLsbD i || (readReg s rt).getLsbD i)) ∧
    (∃ t v, exec (.xor rd rs rt) s = .next t ∧ Computes rd v s t ∧
      ∀ i, v.getLsbD i = ((readReg s rs).getLsbD i ^^ (readReg s rt).getLsbD i)) ∧
    (∃ t v, exec (.andi rd rs imm) s = .next t ∧ Computes rd v s t ∧
      ∀ i, v.getLsbD i = ((readReg s rs).getLsbD i && imm.getLsbD i))

/-- The three shifts complete at every state, as multiplication and floor division by a power of two (46_shift_mod.md R201 to
R203). -/
def Obligations.ShiftResults : Prop :=
  ∀ s rd rs amt,
    (∃ t v, exec (.sll rd rs amt) s = .next t ∧ Computes rd v s t ∧
      v.toNat = (readReg s rs).toNat * 2 ^ amt.toNat % 65536) ∧
    (∃ t v, exec (.sra rd rs amt) s = .next t ∧ Computes rd v s t ∧
      v.toInt = (readReg s rs).toInt / 2 ^ amt.toNat) ∧
    (∃ t v, exec (.srl rd rs amt) s = .next t ∧ Computes rd v s t ∧
      v.toNat = (readReg s rs).toNat / 2 ^ amt.toNat)

/-- CONST and HICONST complete at every state (48_const.md R221, R222). -/
def Obligations.ConstHiconstResults : Prop :=
  ∀ s rd imm (imm8 : BitVec 8),
    (∃ t, exec (.const rd imm) s = .next t ∧ Computes rd imm s t) ∧
    (∃ t v, exec (.hiconst rd imm8) s = .next t ∧ Computes rd v s t ∧
      v.toNat = imm8.toNat * 256 + (readReg s rd).toNat % 256)

/-- CONST of any 9-bit value with the low byte of `k`, then HICONST of its high byte, leaves `k` in the register and the flags of
`k` (48_const.md R223). -/
def Obligations.ConstThenHiconstBuildsAnyWord : Prop :=
  ∀ s rd (k : Word) (f : BitVec 9), f.setWidth 8 = k.setWidth 8 →
    ∃ t u, exec (.const rd (sext 9 f)) s = .next t ∧ exec (.hiconst rd (k.extractLsb' 8 8)) t = .next u ∧
      OnlyRegister rd k s u ∧ FlagsOf k.toInt s u ∧ u.pc = s.pc + 2 ∧ SameMemory s u

/-- The seven branches complete at every state: taken exactly when a flag they name is set, and only PC changes (44_branch.md R180,
R182 to R188). Which flag stands in which bit rests on D6, D7 (log 1, log 2). -/
def Obligations.BranchResults : Prop :=
  ∀ s imm,
    let target (taken : Bool) : Word := if taken then s.pc + 1 + imm else s.pc + 1
    let n := s.psr.getLsbD 2
    let z := s.psr.getLsbD 1
    let p := s.psr.getLsbD 0
    (∃ t, exec (.brp imm) s = .next t ∧ GoesTo (target p) s t) ∧
    (∃ t, exec (.brz imm) s = .next t ∧ GoesTo (target z) s t) ∧
    (∃ t, exec (.brzp imm) s = .next t ∧ GoesTo (target (z || p)) s t) ∧
    (∃ t, exec (.brn imm) s = .next t ∧ GoesTo (target n) s t) ∧
    (∃ t, exec (.brnp imm) s = .next t ∧ GoesTo (target (n || p)) s t) ∧
    (∃ t, exec (.brnz imm) s = .next t ∧ GoesTo (target (n || z)) s t) ∧
    (∃ t, exec (.brnzp imm) s = .next t ∧ GoesTo (target (n || z || p)) s t)

/-- NOP, JMPR and JMP complete at every state and only PC changes (44_branch.md R181; 45_jump_jsr.md R190, R191). -/
def Obligations.NopAndJumpResults : Prop :=
  ∀ s rs imm,
    (∃ t, exec .nop s = .next t ∧ GoesTo (s.pc + 1) s t) ∧
    (∃ t, exec (.jmpr rs) s = .next t ∧ GoesTo (readReg s rs) s t) ∧
    (∃ t, exec (.jmp imm) s = .next t ∧ GoesTo (s.pc + 1 + imm) s t)

/-- JSR and JSRR complete at every state: `R[7]` gets PC + 1, the flags stay; JSR's target keeps PC's high bit over 16 times the
field (D11, log 4), JSRR's is `R[rs]`, and PC + 1 for `R7` (D12, log 5) (45_jump_jsr.md R192, R193). -/
def Obligations.JsrJsrrResults : Prop :=
  ∀ s (imm : BitVec 11) rs,
    (∃ t, exec (.jsr imm) s = .next t ∧ OnlyRegister .r7 (s.pc + 1) s t ∧ t.psr = s.psr ∧ SameMemory s t ∧
      t.trace = s.trace ∧ t.pc.toNat = s.pc.toNat / 32768 * 32768 + imm.toNat * 16) ∧
    (∃ t, exec (.jsrr rs) s = .next t ∧ OnlyRegister .r7 (s.pc + 1) s t ∧ t.psr = s.psr ∧ SameMemory s t ∧
      t.trace = s.trace ∧ t.pc = (if rs = .r7 then s.pc + 1 else readReg s rs))

/-- LDR completes exactly where the mode may reach the effective address, with the word there; elsewhere it is fatal
(47_load_store.md R210, R211). -/
def Obligations.LoadResults : Prop :=
  ∀ s rd rs imm (ea : Word), ea.toNat = ((readReg s rs).toNat + imm.toNat) % 65536 →
    (denied (currentMode s) ea = false → ∃ t, exec (.ldr rd rs imm) s = .next t ∧ Computes rd (loadWord s ea) s t) ∧
    (denied (currentMode s) ea = true → exec (.ldr rd rs imm) s = .fault (.dataPermission ea))

/-- STR completes exactly where the mode may reach the effective address: one word of memory and PC change, no other word, no
register, no flag; elsewhere it is fatal (47_load_store.md R210, R212). -/
def Obligations.StoreResults : Prop :=
  ∀ s rt rs imm (ea : Word), ea.toNat = ((readReg s rs).toNat + imm.toNat) % 65536 →
    (denied (currentMode s) ea = false → ∃ t, exec (.str rt rs imm) s = .next t ∧
      OnlyWord ea (readReg s rt) s t ∧ SameRegisters s t ∧ t.psr = s.psr ∧ t.pc = s.pc + 1 ∧ t.trace = s.trace) ∧
    (denied (currentMode s) ea = true → exec (.str rt rs imm) s = .fault (.dataPermission ea))

/-- The memory primitives (47_load_store.md R213): a write sets the whole word at its address and changes no other cell; a read
gives the last word written, and nothing it does is seen by a later read. -/
def Obligations.MemoryPrimitives : Prop :=
  ∀ s a v, loadWord (storeWord a v s) a = v ∧ (∀ b, b ≠ a → loadWord (storeWord a v s) b = loadWord s b) ∧
    (storeWord a v s).regs = s.regs ∧ (storeWord a v s).pc = s.pc ∧ (storeWord a v s).psr = s.psr

/-- TRAP completes at every state, in either mode: `R[7]` gets the return address, the flags its sign (D13, log 7), the mode is
supervisor, PC is 0x8000 plus the trap number, and the next fetch is permitted; nothing else changes (49_trap_rti.md R231). -/
def Obligations.TrapEntry : Prop :=
  ∀ s (imm : BitVec 8), ∃ t, exec (.trap imm) s = .next t ∧
    OnlyRegister .r7 (s.pc + 1) s t ∧ codeOf t.psr = signCode (s.pc + 1).toInt ∧ currentMode t = .supervisor ∧
    t.psr.extractLsb' 3 12 = s.psr.extractLsb' 3 12 ∧ t.pc.toNat = 0x8000 + imm.toNat ∧
    denied (currentMode t) t.pc = false ∧ SameMemory s t ∧ t.trace = s.trace

/-- RTI completes at every state, in either mode: PC from `R[7]`, the mode is user, the flags and every register stay
(49_trap_rti.md R233). -/
def Obligations.RtiReturn : Prop :=
  ∀ s, ∃ t, exec .rti s = .next t ∧
    t.pc = readReg s .r7 ∧ currentMode t = .user ∧ t.psr.extractLsb' 0 15 = s.psr.extractLsb' 0 15 ∧
    SameRegisters s t ∧ SameMemory s t ∧ t.trace = s.trace

/-- A TRAP cycle followed by an RTI cycle at its entry point returns to the address after the TRAP, in user mode, with the flags
of that address (D13, log 7); no other register and no memory changes (49_trap_rti.md R234). The trap number 0xFF is left out, as
there: its entry point is the halt sentinel. -/
def Obligations.TrapThenRtiReturnsToUser : Prop :=
  ∀ s (imm : BitVec 8), MayRun s → FetchAllowed s → decode (fetch s) = .trap imm → imm ≠ 0xFF →
    decode (loadWord s (0x8000 ||| imm.setWidth 16)) = .rti →
    ∃ t u, step s = .next t ∧ step t = .next u ∧
      t.pc = 0x8000 ||| imm.setWidth 16 ∧ currentMode t = .supervisor ∧
      u.pc = s.pc + 1 ∧ currentMode u = .user ∧ codeOf u.psr = signCode (s.pc + 1).toInt ∧
      OnlyRegister .r7 (s.pc + 1) s u ∧ SameMemory s u

/-- Executing a word of an unassigned opcode is fatal at every state and reports the word (60_exceptions.md R243). Rests on D1,
D19 (log 12). -/
def Obligations.UnassignedOpcodesAreFatal : Prop :=
  ∀ s (low : BitVec 12),
    (∃ w, exec (.illegal3 low) s = .fault (.illegalOpcode w) ∧ w.toNat = 0x3000 + low.toNat) ∧
    (∃ w, exec (.illegalB low) s = .fault (.illegalOpcode w) ∧ w.toNat = 0xB000 + low.toNat) ∧
    (∃ w, exec (.illegalE low) s = .fault (.illegalOpcode w) ∧ w.toNat = 0xE000 + low.toNat)

/-! ## Several cycles -/

/-- A word STR writes over the next instruction is what the next fetch reads, and what the next cycle runs (20_memory.md R64,
70_reset_and_hazards.md R293): unless the next address is the halt sentinel, where no cycle is run, the step after the store is
the cycle of the instruction that word decodes to. That the state holds the trace is the model's choice (log 14). -/
def Obligations.StoredWordIsExecutedNext : Prop :=
  ∀ s rt rs imm, MayRun s → FetchAllowed s → decode (fetch s) = .str rt rs imm →
    effectiveAddress rs imm s = s.pc + 1 → denied (currentMode s) (s.pc + 1) = false →
    ∃ t, step s = .next t ∧ t.pc = s.pc + 1 ∧ fetchDenied t = false ∧ fetch t = readReg s rt ∧
      (s.pc + 1 ≠ 0x80FF →
        (∀ u, exec (decode (readReg s rt)) t = .next u → step t = .next
          { u with sig := Signals.zero, trace := u.trace ++ [traceRecord (s.pc + 1) (readReg s rt) u] }) ∧
        (∀ f, exec (decode (readReg s rt)) t = .fault f → step t = .fault f))

/-- What a successful cycle hands to the trace sink (40_sequencer.md R134): one record, with the PC and the word of the cycle,
the register value written or zero, and the signals the instruction drives (D15, D25, log 8). That the state holds the records
is the model's choice (log 14). -/
def Obligations.TraceRecordOfEachCycle : Prop :=
  ∀ s t, MayRun s → s.sig = Signals.zero → step s = .next t →
    ∃ u r, exec (decode (fetch s)) s = .next u ∧ t.trace = s.trace ++ [r] ∧
      (let d := drivenSignals (decode (fetch s)) s u
       r.pc = s.pc ∧ r.insn = fetch s ∧
       r.regWE = (writtenReg (decode (fetch s))).isSome ∧
       r.rd = ((writtenReg (decode (fetch s))).map Reg.toBits).getD 0 ∧
       r.regValue = ((writtenReg (decode (fetch s))).map (readReg t)).getD 0 ∧
       r.nzpWE = (flagSource (decode (fetch s)) s u).isSome ∧
       r.nzp = (if (flagSource (decode (fetch s)) s u).isSome then codeOf t.psr else 0) ∧
       r.dmemWE = d.dmemWE ∧ r.dmemAddr = d.dmemAddr ∧ r.dmemValue = d.dmemValue)

/-- Cycles and trace records (40_sequencer.md R137): `n` cycles, none begun at the halt sentinel, leave `n` records when all succeed;
when one fails, it is the first cycle that does, the cycles before it left one record each and it leaves none. That the state
holds the records is the model's choice (log 14). -/
def Obligations.TraceCountsCycles : Prop :=
  ∀ n s, (∀ k u, k < n → Host.Core.run core k s = .next u → u.pc ≠ 0x80FF) →
    (∀ t, Host.Core.run core n s = .next t → t.trace.length = s.trace.length + n) ∧
    (∀ f, Host.Core.run core n s = .fault f → ∃ k t, k < n ∧ Host.Core.run core k s = .next t ∧
      t.trace.length = s.trace.length + k ∧ step t = .fault f ∧ (afterCycle t).trace = t.trace)

/-- The driving loop (40_sequencer.md R132) and iterated `step` agree at every number of cycles, from every state: a halted run is
a fixed point with PC at the sentinel, a failed run stops with the same cause in a state whose next cycle fails that way, a
run is never refused. Iterating past the end uses the model's frozen state (log 9). -/
def Obligations.DrivingLoopAgreesWithSteps : Prop :=
  ∀ n s, match runLoop n s with
    | .halted t => Host.Core.run core n s = .next t ∧ t.pc = 0x80FF ∧ step t = .next t
    | .running t => Host.Core.run core n s = .next t ∧ t.pc ≠ 0x80FF
    | .failed t f => Host.Core.run core n s = .fault f ∧ t.sig = Signals.zero ∧
        ∃ k u, k < n ∧ Host.Core.run core k s = .next u ∧ step u = .fault f ∧ t = clearSignals u
    | .refused _ _ => False

/-- A machine left at reset with nothing loaded (60_exceptions.md R262): 32256 cycles of the word 0x0000, a NOP, at 0x8200 to
0xFFFF in order, one record each; then the fetch at 0x0000 is denied, with PSR and the registers as at reset. That 0x0000 is a
NOP rests on D1, D6 (log 1); that the state holds the records is the model's choice (log 14). -/
def Obligations.EmptyMachineRunsNopsThenFails : Prop :=
  decode 0x0000 = .nop ∧
  ∃ t, Host.Core.run core 32256 State.reset = .next t ∧ t.pc = 0x0000 ∧ t.psr = 0x8002 ∧ t.regs = State.reset.regs ∧
    t.trace = (List.range 32256).map (fun k => quietRecord (BitVec.ofNat 16 (0x8200 + k)) 0x0000) ∧
    step t = .fault (.fetchPermission 0x0000)

/-- A loaded segment (20_memory.md R52, 70_reset_and_hazards.md R285): it fits when it ends inside the address space and only then;
its words stand at consecutive addresses, and every other word is as before. The order of segments is `loadSegments`. -/
def Obligations.LoaderPlacesConsecutiveWords : Prop :=
  ∀ (ws : List Word) (a : Nat) (m : Memory), ws ≠ [] →
    ((loadWords a ws m).isSome = true ↔ a + ws.length ≤ 65536) ∧
    ∀ m', loadWords a ws m = some m' →
      (∀ k (h : k < ws.length), m'.read (a + k) = ws[k]) ∧
      (∀ b, (b < a ∨ a + ws.length ≤ b) → m'.read b = m.read b)

/-- The loader sets memory alone (70_reset_and_hazards.md R285): a run's start state has PC, PSR, registers and signals as at reset
and no trace record, whatever was loaded; memory holds the image, the last segment that covers an address deciding its word, and
0x0000 where no segment does. It meets the invariant (the memory's form is the model's, log 13; the empty trace, log 14). -/
def Obligations.LoadedStartStateIsResetButForMemory : Prop :=
  ∀ image s, startState image = some s →
    s.pc = 0x8200 ∧ s.psr = 0x8002 ∧ (∀ r, readReg s r = 0) ∧ s.sig = Signals.zero ∧ s.trace = [] ∧
    ImageIn image State.reset.mem s.mem ∧
    (∀ a : Word, (∀ g ∈ image, ¬ Covers g a.toNat) → loadWord s a = 0) ∧ s.Inv

/-- Several segments (20_memory.md R52, 70_reset_and_hazards.md R285), over any memory: they load when each that has a word ends
inside the address space and only then; a later segment overwrites an earlier one, and a word none covers is as before. -/
def Obligations.LaterSegmentsOverwriteEarlier : Prop :=
  ∀ (image : List Segment) (m : Memory),
    ((loadSegments image m).isSome = true ↔ ∀ g ∈ image, g.words ≠ [] → g.start + g.words.length ≤ 65536) ∧
    ∀ m', loadSegments image m = some m' → ImageIn image m m'

/-- The outcome of a cycle (40_sequencer.md R131): a cycle run by a machine not yet halted that succeeds reports `halt-pending`
when it left PC at the halt sentinel and `continue` when PC is anything else; one that fails reports its cause; there is no fourth
outcome. That the cycle which reached the sentinel reports it rests on D16 (log 9). -/
def Obligations.OutcomeOfEachCycle : Prop :=
  ∀ s,
    (∀ t, MayRun s → step s = .next t →
      (t.pc = 0x80FF → outcomeOf (step s) = .haltPending) ∧ (t.pc ≠ 0x80FF → outcomeOf (step s) = .continue)) ∧
    (∀ f, step s = .fault f → outcomeOf (step s) = .error f) ∧
    (∀ r, outcomeOf (step s) ≠ .refused r)

/-- A word 0x0000 to 0x01FF is a NOP wherever it may be fetched (44_branch.md R181): the step answers a next state with PC + 1, PSR,
registers and memory as they were, the signals clear and one record more, the record of a cycle that drives no signal where the
cycle began with none driven (10_state.md R37). Rests on D1, D6 (log 1); the trace is the model's (log 14). -/
def Obligations.NopWordOnlyAdvancesPc : Prop :=
  ∀ s, MayRun s → FetchAllowed s → (fetch s).toNat < 0x0200 →
    ∃ r, step s = .next { s with pc := s.pc + 1, sig := Signals.zero, trace := s.trace ++ [r] } ∧
      r.pc = s.pc ∧ r.insn = fetch s ∧ (s.sig = Signals.zero → r = quietRecord s.pc (fetch s))

/-! ## Other values of the parameters (00_scope.md R5) -/

/-- The decoder, the encoder, the dispatcher, the step and the driving loop are those under a configuration, at the values the
spec gives the parameters (00_scope.md R5, R9). -/
def Obligations.StandardConfigurationIsTheMachine : Prop :=
  (∀ w, decodeUnder Config.standard w = decode w) ∧ (∀ i, encodeUnder Config.standard i = encode i) ∧
  (∀ i s, execUnder Config.standard i s = exec i s) ∧ (∀ s, stepUnder Config.standard s = step s) ∧
  (∀ n s, runLoopUnder Config.standard n s = runLoop n s)

/-- Under every proper configuration, decoding the word the encoder writes for a well-formed instruction gives the instruction
back (00_scope.md R5; 30_encoding.md R103, R104). That ILLEGAL_3, ILLEGAL_B and ILLEGAL_E then stand for the first, second and
third opcode that no class has is the model's choice (log 25). -/
def Obligations.RoundTripUnderEveryConfiguration : Prop :=
  ∀ c : Parameters, c.Proper → ∀ i, WellFormed i = true → decodeUnder c (encodeUnder c i) = i

/-- Under every proper configuration, every step keeps the invariant, from every state that has it: `PSR[14:3] = 0`, exactly one
flag set, every control signal zero between cycles, memory canonical (00_scope.md R5; 10_state.md R39; the memory's form is the
model's, log 13). -/
def Obligations.StepKeepsInvariantUnderEveryConfiguration : Prop :=
  ∀ c : Parameters, c.Proper → ∀ s t, s.Inv → stepUnder c s = .next t → t.Inv

/-- DIV, MOD, JSR and JSRR complete at every state under every configuration, with the result its `DIV_FN`, `MOD_FN`,
`JSR_IMM_SIGNED` and `JSRR_LINK_FIRST` give, and nothing else changes (00_scope.md R5; 41_arithmetic.md R154, 46_shift_mod.md R204,
45_jump_jsr.md R192, R193). -/
def Obligations.DivModJsrJsrrUnderEveryConfiguration : Prop :=
  ∀ (c : Parameters) (s : State) (rd rs rt : Reg) (imm : BitVec 11),
    let computes (v : Word) (t : State) : Prop :=
      OnlyRegister rd v s t ∧ codeOf t.psr = (if v.toInt < 0 then c.codeN else if v.toInt = 0 then c.codeZ else c.codeP) ∧
      t.psr.extractLsb' 3 13 = s.psr.extractLsb' 3 13 ∧ t.pc = s.pc + 1 ∧ SameMemory s t ∧ t.trace = s.trace
    let links (target : Word) (t : State) : Prop :=
      OnlyRegister .r7 (s.pc + 1) s t ∧ t.pc = target ∧ t.psr = s.psr ∧ SameMemory s t ∧ t.trace = s.trace
    (∃ t, execUnder c (.div rd rs rt) s = .next t ∧ computes (c.divFn (readReg s rs) (readReg s rt)) t) ∧
    (∃ t, execUnder c (.mod rd rs rt) s = .next t ∧ computes (c.modFn (readReg s rs) (readReg s rt)) t) ∧
    (∃ t, execUnder c (.jsr imm) s = .next t ∧
      links ((s.pc &&& 0x8000) ||| ((if c.jsrImmSigned then imm.signExtend 16 else imm.setWidth 16) <<< 4)) t) ∧
    (∃ t, execUnder c (.jsrr rs) s = .next t ∧
      links (if c.jsrrLinkFirst = true ∧ rs = .r7 then s.pc + 1 else readReg s rs) t)

/-- Which branches are taken after `SetNZP` of a value does not depend on the order of the flags: under every proper configuration
each branch instruction completes and is taken exactly when the value has a sign it names (00_scope.md R5; 10_state.md R31;
44_branch.md R180, R182 to R188). That another `NZP_ORDER` alone changes no branch is the model's choice: its `BR_SUBOP` gives a
number the flags it tests by name (log 25), where D7 of 92_eei_decisions.md says it only "provided D6 uses the same order". -/
def Obligations.BranchesFollowTheSignUnderEveryNzpOrder : Prop :=
  ∀ c : Parameters, c.Proper → ∀ (s : State) (v imm : Word),
    let u := setNzp c v s
    (∃ t, execUnder c (.brp imm) u = .next t ∧ GoesTo (if 0 < v.toInt then s.pc + 1 + imm else s.pc + 1) u t) ∧
    (∃ t, execUnder c (.brz imm) u = .next t ∧ GoesTo (if v.toInt = 0 then s.pc + 1 + imm else s.pc + 1) u t) ∧
    (∃ t, execUnder c (.brzp imm) u = .next t ∧ GoesTo (if 0 ≤ v.toInt then s.pc + 1 + imm else s.pc + 1) u t) ∧
    (∃ t, execUnder c (.brn imm) u = .next t ∧ GoesTo (if v.toInt < 0 then s.pc + 1 + imm else s.pc + 1) u t) ∧
    (∃ t, execUnder c (.brnp imm) u = .next t ∧ GoesTo (if v.toInt ≠ 0 then s.pc + 1 + imm else s.pc + 1) u t) ∧
    (∃ t, execUnder c (.brnz imm) u = .next t ∧ GoesTo (if v.toInt ≤ 0 then s.pc + 1 + imm else s.pc + 1) u t) ∧
    (∃ t, execUnder c (.brnzp imm) u = .next t ∧ GoesTo (s.pc + 1 + imm) u t)
end

