-- ==== Sys2Proof/Laws/Bits.lean ====
section
/-! SUPPORT. Small facts about register numbers, the tables of a configuration, fields, placing a field, and the extensions of an
immediate. -/

namespace Sys2Proof

@[simp] theorem Reg.ofBits_toBits (r : Reg) : Reg.ofBits r.toBits = r := by
  cases r <;> rfl

@[simp] theorem Reg.toBits_ofBits (b : BitVec 3) : (Reg.ofBits b).toBits = b := by
  revert b
  decide

theorem Reg.toBits_injective {r q : Reg} (h : r.toBits = q.toBits) : r = q := by
  rw [← Reg.ofBits_toBits r, h, Reg.ofBits_toBits]

/-! ## The tables of a proper configuration -/

/-- The spec's values of the parameters are a proper configuration (00_scope.md R5). -/
theorem Config.standard_proper : Config.standard.Proper where
  opcodes := fun a b h => by revert h; cases a <;> cases b <;> decide
  branchSubops := fun a b h => by revert h; cases a <;> cases b <;> decide
  arithSubops := fun a b h => by revert h; cases a <;> cases b <;> decide
  logicSubops := fun a b h => by revert h; cases a <;> cases b <;> decide
  cmpSubops := fun a b h => by revert h; cases a <;> cases b <;> decide
  shiftSubops := fun a b h => by revert h; cases a <;> cases b <;> decide
  codes := by decide

@[simp] theorem Config.standard_opcodeOf : Config.standard.opcodeOf = Config.opcodeOf := rfl
@[simp] theorem Config.standard_branchSubop : Config.standard.branchSubop = Config.branchSubop := rfl
@[simp] theorem Config.standard_arithSubop : Config.standard.arithSubop = Config.arithSubop := rfl
@[simp] theorem Config.standard_logicSubop : Config.standard.logicSubop = Config.logicSubop := rfl
@[simp] theorem Config.standard_cmpSubop : Config.standard.cmpSubop = Config.cmpSubop := rfl
@[simp] theorem Config.standard_shiftSubop : Config.standard.shiftSubop = Config.shiftSubop := rfl
@[simp] theorem Config.standard_codeN : Config.standard.codeN = Config.codeN := rfl
@[simp] theorem Config.standard_codeZ : Config.standard.codeZ = Config.codeZ := rfl
@[simp] theorem Config.standard_codeP : Config.standard.codeP = Config.codeP := rfl
@[simp] theorem Config.standard_divFn : Config.standard.divFn = Config.divFn := rfl
@[simp] theorem Config.standard_modFn : Config.standard.modFn = Config.modFn := rfl
@[simp] theorem Config.standard_jsrImmSigned : Config.standard.jsrImmSigned = Config.jsrImmSigned := rfl
@[simp] theorem Config.standard_jsrrLinkFirst : Config.standard.jsrrLinkFirst = Config.jsrrLinkFirst := rfl
@[simp] theorem Config.standard_classOf : Config.standard.classOf = Config.classOf := rfl

@[simp] theorem Config.standard_unassigned1 : Config.standard.unassigned1 = 0x3 := by
  decide

@[simp] theorem Config.standard_unassigned2 : Config.standard.unassigned2 = 0xB := by
  decide

@[simp] theorem Config.standard_unassigned3 : Config.standard.unassigned3 = 0xE := by
  decide

/-- The opcodes that no class has (30_encoding.md R98). -/
theorem Config.classOf_eq_none : ∀ op, Config.classOf op = none ↔ op = 0x3 ∨ op = 0xB ∨ op = 0xE := by
  decide

theorem OpClass.mem_all (k : OpClass) : k ∈ OpClass.all := by
  cases k <;> decide

theorem OpClass.nodup_all : OpClass.all.Nodup := by
  decide

namespace Parameters

variable {c : Parameters}

theorem classOf_opcodeOf (h : c.Proper) (k : OpClass) : c.classOf (c.opcodeOf k) = some k := by
  cases k <;> simp [classOf, OpClass.all, List.find?, h.opcodes.eq_iff, beq_eq_decide]

/-- What a class the decoder finds is: the one with that opcode. -/
theorem classOf_eq_some {op : BitVec 4} {k : OpClass} (h : c.classOf op = some k) : c.opcodeOf k = op := by
  simpa using List.find?_some h

theorem classOf_eq_none {op : BitVec 4} : c.classOf op = none ↔ ∀ k, c.opcodeOf k ≠ op := by
  simp [classOf, List.find?_eq_none, OpClass.mem_all]

theorem branchOpOf_branchSubop (h : c.Proper) (op : BranchOp) : c.branchOpOf (c.branchSubop op) = op := by
  cases op <;> simp [branchOpOf, h.branchSubops.eq_iff]

theorem arithOpOf_arithSubop (h : c.Proper) (op : ArithOp) : c.arithOpOf (c.arithSubop op) = op := by
  cases op <;> simp [arithOpOf, h.arithSubops.eq_iff]

theorem logicOpOf_logicSubop (h : c.Proper) (op : LogicOp) : c.logicOpOf (c.logicSubop op) = op := by
  cases op <;> simp [logicOpOf, h.logicSubops.eq_iff]

theorem cmpOpOf_cmpSubop (h : c.Proper) (op : CmpOp) : c.cmpOpOf (c.cmpSubop op) = op := by
  cases op <;> simp [cmpOpOf, h.cmpSubops.eq_iff]

theorem shiftOpOf_shiftSubop (h : c.Proper) (op : ShiftOp) : c.shiftOpOf (c.shiftSubop op) = op := by
  cases op <;> simp [shiftOpOf, h.shiftSubops.eq_iff]

/-- The sixteen opcodes, in rising order. -/
theorem mem_opcodes (op : BitVec 4) : op ∈ (List.range 16).map (BitVec.ofNat 4) := by
  revert op
  decide

theorem mem_unassigned {op : BitVec 4} : op ∈ c.unassigned ↔ c.classOf op = none := by
  simp only [unassigned, List.mem_filter, mem_opcodes, true_and, Option.isNone_iff_eq_none]

theorem nodup_unassigned : c.unassigned.Nodup :=
  List.Nodup.filter _ (by decide)

/-- Thirteen of the sixteen opcodes have a class, so three have none (30_encoding.md R98). -/
theorem length_unassigned (h : c.Proper) : c.unassigned.length = 3 := by
  have all : ((List.range 16).map (BitVec.ofNat 4)).Nodup := by decide
  have some : (((List.range 16).map (BitVec.ofNat 4)).filter fun op => !(c.classOf op).isNone).Perm
      (OpClass.all.map c.opcodeOf) := by
    rw [List.perm_ext_iff_of_nodup (all.filter _) (OpClass.nodup_all.map h.opcodes)]
    intro op
    have here : (!(c.classOf op).isNone) = true ↔ ∃ k, c.opcodeOf k = op := by
      rw [Bool.not_eq_true', Option.isNone_eq_false_iff, Option.isSome_iff_exists]
      exact ⟨fun ⟨k, hk⟩ => ⟨k, classOf_eq_some hk⟩, fun ⟨k, hk⟩ => ⟨k, hk ▸ classOf_opcodeOf h k⟩⟩
    rw [List.mem_filter, and_iff_right (mem_opcodes op), here, List.mem_map]
    exact ⟨fun ⟨k, hk⟩ => ⟨k, k.mem_all, hk⟩, fun ⟨k, _, hk⟩ => ⟨k, hk⟩⟩
  have split := List.length_eq_length_filter_add (l := (List.range 16).map (BitVec.ofNat 4)) fun op => (c.classOf op).isNone
  rw [some.length_eq] at split
  simpa [unassigned, OpClass.all] using split

/-- The three opcodes of a proper configuration that no class has: what they are to the decoder, and that they differ. -/
theorem unassigned_eq (h : c.Proper) : c.unassigned = [c.unassigned1, c.unassigned2, c.unassigned3] := by
  obtain ⟨x, y, z, e⟩ := List.length_eq_three.1 (length_unassigned h)
  simp [unassigned1, unassigned2, unassigned3, e]

theorem unassigned_distinct (h : c.Proper) :
    c.unassigned1 ≠ c.unassigned2 ∧ c.unassigned1 ≠ c.unassigned3 ∧ c.unassigned2 ≠ c.unassigned3 := by
  have n := nodup_unassigned (c := c)
  rw [unassigned_eq h] at n
  simp only [List.nodup_cons, List.mem_cons, List.not_mem_nil, or_false, not_or] at n
  exact ⟨n.1.1, n.1.2, n.2.1⟩

/-- An opcode has no class exactly when it is one of the three. -/
theorem classOf_eq_none_iff (h : c.Proper) (op : BitVec 4) :
    c.classOf op = none ↔ op = c.unassigned1 ∨ op = c.unassigned2 ∨ op = c.unassigned3 := by
  rw [← mem_unassigned, unassigned_eq h]
  simp

end Parameters

/-! ## Fields -/

theorem field_or (lo len : Nat) (v w : Word) : field lo len (v ||| w) = field lo len v ||| field lo len w := by
  ext i hi
  simp [field]

/-- Reading a field where it was placed gives it back. -/
theorem field_place_same (lo n : Nat) (f : BitVec n) (h : lo + n ≤ 16) : field lo n (place lo f) = f := by
  ext i hi
  simp only [field, place, BitVec.getElem_extractLsb', BitVec.getLsbD_shiftLeft, BitVec.getLsbD_setWidth]
  have h1 : lo + i < 16 := by omega
  have h2 : ¬ lo + i < lo := by omega
  have h3 : lo + i - lo = i := by omega
  simp [h1, h2, h3, BitVec.getLsbD_eq_getElem hi]
  omega

/-- A field placed wholly below the bits read leaves them zero. -/
theorem field_place_below (lo len lo' n : Nat) (f : BitVec n) (h : lo' + n ≤ lo) :
    field lo len (place lo' f) = 0 := by
  ext i hi
  simp only [field, place, BitVec.getElem_extractLsb', BitVec.getLsbD_shiftLeft, BitVec.getLsbD_setWidth]
  have : f.getLsbD (lo + i - lo') = false := BitVec.getLsbD_of_ge _ _ (by omega)
  simp [this]

/-- A field placed wholly above the bits read leaves them zero. -/
theorem field_place_above (lo len lo' n : Nat) (f : BitVec n) (h : lo + len ≤ lo') :
    field lo len (place lo' f) = 0 := by
  ext i hi
  simp only [field, place, BitVec.getElem_extractLsb', BitVec.getLsbD_shiftLeft]
  have : lo + i < lo' := by omega
  simp [this]

/-- `sext_N` is the sign extension of the bit-vector library. -/
theorem sext_eq_signExtend (n : Nat) (f : BitVec n) : sext n f = f.signExtend 16 := by
  ext i hi
  have ones : ∀ j, j < 16 → (0xFFFF#16).getLsbD j = true := by decide
  simp only [sext, BitVec.getElem_signExtend]
  by_cases h : f.msb <;> by_cases hin : i < n <;> simp [h, hin, BitVec.getLsbD_eq_getElem]
  · have := ones (i - n) (by omega)
    rw [BitVec.getLsbD_eq_getElem (by omega)] at this
    exact Or.inr this
  · exact BitVec.getLsbD_of_ge _ _ (by omega)

/-- A value that fits `n` signed bits is the sign extension of its low `n` bits. -/
theorem sext_field_of_fits (n : Nat) (v : Word) (hn : 0 < n ∧ n ≤ 16) (h : fitsSigned n v = true) :
    sext n (field 0 n v) = v := by
  simp only [fitsSigned, Bool.and_eq_true, decide_eq_true_eq] at h
  apply BitVec.eq_of_toInt_eq
  rw [sext_eq_signExtend, BitVec.toInt_signExtend_of_le hn.2]
  have e : (field 0 n v).toNat = v.toNat % 2 ^ n := by simp [field, BitVec.extractLsb'_toNat]
  rw [BitVec.toInt_eq_toNat_bmod, e]
  have : ((v.toNat % 2 ^ n : Nat) : Int).bmod (2 ^ n) = v.toInt.bmod (2 ^ n) := by
    rw [BitVec.toInt_eq_toNat_bmod v]
    have d : (2 ^ n : Nat) ∣ 2 ^ 16 := Nat.pow_dvd_pow 2 hn.2
    rw [Int.bmod_bmod_of_dvd d]
    rw [Int.natCast_emod]
    exact Int.emod_bmod _ _
  rw [this]
  obtain ⟨m, rfl⟩ : ∃ m, n = m + 1 := ⟨n - 1, by omega⟩
  simp only [Nat.add_sub_cancel] at h
  apply Int.bmod_eq_of_le_mul_two <;> push_cast <;> rw [pow_succ] <;> omega

/-- A value that fits `n` unsigned bits is the zero extension of its low `n` bits. -/
theorem zext_field_of_fits (n : Nat) (v : Word) (h : fitsUnsigned n v = true) :
    zext n (field 0 n v) = v := by
  simp only [fitsUnsigned, decide_eq_true_eq] at h
  apply BitVec.eq_of_toNat_eq
  have e : (field 0 n v).toNat = v.toNat % 2 ^ n := by simp [field, BitVec.extractLsb'_toNat]
  rw [zext, BitVec.toNat_setWidth, e, Nat.mod_eq_of_lt h, Nat.mod_eq_of_lt v.isLt]

end Sys2Proof
end

