-- ==== Sys2Proof/Laws/State.lean ====
section
/-! SUPPORT. One lemma for each field of State and each update of Ops.lean, Flags.lean and Sequencer.lean, and for each reading
of State through an update that leaves its field alone; all true by rfl. -/

namespace Sys2Proof.Machine

variable (s : State)

/-! ## setPc -/

@[simp] theorem setPc_regs (v : Word) : (setPc v s).regs = s.regs := rfl
@[simp] theorem setPc_pc (v : Word) : (setPc v s).pc = v := rfl
@[simp] theorem setPc_psr (v : Word) : (setPc v s).psr = s.psr := rfl
@[simp] theorem setPc_mem (v : Word) : (setPc v s).mem = s.mem := rfl
@[simp] theorem setPc_sig (v : Word) : (setPc v s).sig = s.sig := rfl
@[simp] theorem setPc_trace (v : Word) : (setPc v s).trace = s.trace := rfl
@[simp] theorem setPc_readReg (v : Word) (q : Reg) : readReg (setPc v s) q = readReg s q := rfl
@[simp] theorem setPc_loadWord (v : Word) (b : Word) : loadWord (setPc v s) b = loadWord s b := rfl
@[simp] theorem setPc_currentMode (v : Word) : currentMode (setPc v s) = currentMode s := rfl

/-! ## advancePc -/

@[simp] theorem advancePc_regs : (advancePc s).regs = s.regs := rfl
@[simp] theorem advancePc_pc : (advancePc s).pc = s.pc + 1 := rfl
@[simp] theorem advancePc_psr : (advancePc s).psr = s.psr := rfl
@[simp] theorem advancePc_mem : (advancePc s).mem = s.mem := rfl
@[simp] theorem advancePc_sig : (advancePc s).sig = s.sig := rfl
@[simp] theorem advancePc_trace : (advancePc s).trace = s.trace := rfl
@[simp] theorem advancePc_readReg (q : Reg) : readReg (advancePc s) q = readReg s q := rfl
@[simp] theorem advancePc_loadWord (b : Word) : loadWord (advancePc s) b = loadWord s b := rfl
@[simp] theorem advancePc_currentMode : currentMode (advancePc s) = currentMode s := rfl

/-! ## writeReg -/

@[simp] theorem writeReg_regs (r : Reg) (v : Word) : (writeReg r v s).regs = s.regs.set r v := rfl
@[simp] theorem writeReg_pc (r : Reg) (v : Word) : (writeReg r v s).pc = s.pc := rfl
@[simp] theorem writeReg_psr (r : Reg) (v : Word) : (writeReg r v s).psr = s.psr := rfl
@[simp] theorem writeReg_mem (r : Reg) (v : Word) : (writeReg r v s).mem = s.mem := rfl
@[simp] theorem writeReg_sig (r : Reg) (v : Word) : (writeReg r v s).sig = { s.sig with regWE := true, rdSel := r.toBits } := rfl
@[simp] theorem writeReg_trace (r : Reg) (v : Word) : (writeReg r v s).trace = s.trace := rfl
@[simp] theorem writeReg_loadWord (r : Reg) (v : Word) (b : Word) : loadWord (writeReg r v s) b = loadWord s b := rfl
@[simp] theorem writeReg_currentMode (r : Reg) (v : Word) : currentMode (writeReg r v s) = currentMode s := rfl

/-! ## setNzp -/

@[simp] theorem setNzp_regs (c : Parameters) (v : Word) : (setNzp c v s).regs = s.regs := rfl
@[simp] theorem setNzp_pc (c : Parameters) (v : Word) : (setNzp c v s).pc = s.pc := rfl
@[simp] theorem setNzp_psr (c : Parameters) (v : Word) : (setNzp c v s).psr = withCode (nzpCode c v) s.psr := rfl
@[simp] theorem setNzp_mem (c : Parameters) (v : Word) : (setNzp c v s).mem = s.mem := rfl
@[simp] theorem setNzp_sig (c : Parameters) (v : Word) : (setNzp c v s).sig = { s.sig with nzpWE := true, nzpCode := nzpCode c v } := rfl
@[simp] theorem setNzp_trace (c : Parameters) (v : Word) : (setNzp c v s).trace = s.trace := rfl
@[simp] theorem setNzp_readReg (c : Parameters) (v : Word) (q : Reg) : readReg (setNzp c v s) q = readReg s q := rfl
@[simp] theorem setNzp_loadWord (c : Parameters) (v : Word) (b : Word) : loadWord (setNzp c v s) b = loadWord s b := rfl

/-! ## setMode -/

@[simp] theorem setMode_regs (m : Mode) : (setMode m s).regs = s.regs := rfl
@[simp] theorem setMode_pc (m : Mode) : (setMode m s).pc = s.pc := rfl
@[simp] theorem setMode_psr (m : Mode) : (setMode m s).psr = withMode m s.psr := rfl
@[simp] theorem setMode_mem (m : Mode) : (setMode m s).mem = s.mem := rfl
@[simp] theorem setMode_sig (m : Mode) : (setMode m s).sig = s.sig := rfl
@[simp] theorem setMode_trace (m : Mode) : (setMode m s).trace = s.trace := rfl
@[simp] theorem setMode_readReg (m : Mode) (q : Reg) : readReg (setMode m s) q = readReg s q := rfl
@[simp] theorem setMode_loadWord (m : Mode) (b : Word) : loadWord (setMode m s) b = loadWord s b := rfl

/-! ## storeWord -/

@[simp] theorem storeWord_regs (a v : Word) : (storeWord a v s).regs = s.regs := rfl
@[simp] theorem storeWord_pc (a v : Word) : (storeWord a v s).pc = s.pc := rfl
@[simp] theorem storeWord_psr (a v : Word) : (storeWord a v s).psr = s.psr := rfl
@[simp] theorem storeWord_mem (a v : Word) : (storeWord a v s).mem = s.mem.write a.toNat v := rfl
@[simp] theorem storeWord_sig (a v : Word) : (storeWord a v s).sig = s.sig := rfl
@[simp] theorem storeWord_trace (a v : Word) : (storeWord a v s).trace = s.trace := rfl
@[simp] theorem storeWord_readReg (a v : Word) (q : Reg) : readReg (storeWord a v s) q = readReg s q := rfl
@[simp] theorem storeWord_currentMode (a v : Word) : currentMode (storeWord a v s) = currentMode s := rfl

/-! ## selectRs -/

@[simp] theorem selectRs_regs (r : Reg) : (selectRs r s).regs = s.regs := rfl
@[simp] theorem selectRs_pc (r : Reg) : (selectRs r s).pc = s.pc := rfl
@[simp] theorem selectRs_psr (r : Reg) : (selectRs r s).psr = s.psr := rfl
@[simp] theorem selectRs_mem (r : Reg) : (selectRs r s).mem = s.mem := rfl
@[simp] theorem selectRs_sig (r : Reg) : (selectRs r s).sig = { s.sig with rsSel := r.toBits } := rfl
@[simp] theorem selectRs_trace (r : Reg) : (selectRs r s).trace = s.trace := rfl
@[simp] theorem selectRs_readReg (r : Reg) (q : Reg) : readReg (selectRs r s) q = readReg s q := rfl
@[simp] theorem selectRs_loadWord (r : Reg) (b : Word) : loadWord (selectRs r s) b = loadWord s b := rfl
@[simp] theorem selectRs_currentMode (r : Reg) : currentMode (selectRs r s) = currentMode s := rfl

/-! ## selectRt -/

@[simp] theorem selectRt_regs (r : Reg) : (selectRt r s).regs = s.regs := rfl
@[simp] theorem selectRt_pc (r : Reg) : (selectRt r s).pc = s.pc := rfl
@[simp] theorem selectRt_psr (r : Reg) : (selectRt r s).psr = s.psr := rfl
@[simp] theorem selectRt_mem (r : Reg) : (selectRt r s).mem = s.mem := rfl
@[simp] theorem selectRt_sig (r : Reg) : (selectRt r s).sig = { s.sig with rtSel := r.toBits } := rfl
@[simp] theorem selectRt_trace (r : Reg) : (selectRt r s).trace = s.trace := rfl
@[simp] theorem selectRt_readReg (r : Reg) (q : Reg) : readReg (selectRt r s) q = readReg s q := rfl
@[simp] theorem selectRt_loadWord (r : Reg) (b : Word) : loadWord (selectRt r s) b = loadWord s b := rfl
@[simp] theorem selectRt_currentMode (r : Reg) : currentMode (selectRt r s) = currentMode s := rfl

/-! ## driveLoad -/

@[simp] theorem driveLoad_regs (a v : Word) : (driveLoad a v s).regs = s.regs := rfl
@[simp] theorem driveLoad_pc (a v : Word) : (driveLoad a v s).pc = s.pc := rfl
@[simp] theorem driveLoad_psr (a v : Word) : (driveLoad a v s).psr = s.psr := rfl
@[simp] theorem driveLoad_mem (a v : Word) : (driveLoad a v s).mem = s.mem := rfl
@[simp] theorem driveLoad_sig (a v : Word) : (driveLoad a v s).sig = { s.sig with dmemAddr := a, dmemValue := v } := rfl
@[simp] theorem driveLoad_trace (a v : Word) : (driveLoad a v s).trace = s.trace := rfl
@[simp] theorem driveLoad_readReg (a v : Word) (q : Reg) : readReg (driveLoad a v s) q = readReg s q := rfl
@[simp] theorem driveLoad_loadWord (a v : Word) (b : Word) : loadWord (driveLoad a v s) b = loadWord s b := rfl
@[simp] theorem driveLoad_currentMode (a v : Word) : currentMode (driveLoad a v s) = currentMode s := rfl

/-! ## driveStore -/

@[simp] theorem driveStore_regs (a v : Word) : (driveStore a v s).regs = s.regs := rfl
@[simp] theorem driveStore_pc (a v : Word) : (driveStore a v s).pc = s.pc := rfl
@[simp] theorem driveStore_psr (a v : Word) : (driveStore a v s).psr = s.psr := rfl
@[simp] theorem driveStore_mem (a v : Word) : (driveStore a v s).mem = s.mem := rfl
@[simp] theorem driveStore_sig (a v : Word) : (driveStore a v s).sig = { s.sig with dmemWE := true, dmemAddr := a, dmemValue := v } := rfl
@[simp] theorem driveStore_trace (a v : Word) : (driveStore a v s).trace = s.trace := rfl
@[simp] theorem driveStore_readReg (a v : Word) (q : Reg) : readReg (driveStore a v s) q = readReg s q := rfl
@[simp] theorem driveStore_loadWord (a v : Word) (b : Word) : loadWord (driveStore a v s) b = loadWord s b := rfl
@[simp] theorem driveStore_currentMode (a v : Word) : currentMode (driveStore a v s) = currentMode s := rfl

/-! ## clearSignals -/

@[simp] theorem clearSignals_regs : (clearSignals s).regs = s.regs := rfl
@[simp] theorem clearSignals_pc : (clearSignals s).pc = s.pc := rfl
@[simp] theorem clearSignals_psr : (clearSignals s).psr = s.psr := rfl
@[simp] theorem clearSignals_mem : (clearSignals s).mem = s.mem := rfl
@[simp] theorem clearSignals_sig : (clearSignals s).sig = Signals.zero := rfl
@[simp] theorem clearSignals_trace : (clearSignals s).trace = s.trace := rfl
@[simp] theorem clearSignals_readReg (q : Reg) : readReg (clearSignals s) q = readReg s q := rfl
@[simp] theorem clearSignals_loadWord (b : Word) : loadWord (clearSignals s) b = loadWord s b := rfl
@[simp] theorem clearSignals_currentMode : currentMode (clearSignals s) = currentMode s := rfl

/-! ## emitTrace -/

@[simp] theorem emitTrace_regs (p w : Word) : (emitTrace p w s).regs = s.regs := rfl
@[simp] theorem emitTrace_pc (p w : Word) : (emitTrace p w s).pc = s.pc := rfl
@[simp] theorem emitTrace_psr (p w : Word) : (emitTrace p w s).psr = s.psr := rfl
@[simp] theorem emitTrace_mem (p w : Word) : (emitTrace p w s).mem = s.mem := rfl
@[simp] theorem emitTrace_sig (p w : Word) : (emitTrace p w s).sig = s.sig := rfl
@[simp] theorem emitTrace_trace (p w : Word) : (emitTrace p w s).trace = s.trace ++ [traceRecord p w s] := rfl
@[simp] theorem emitTrace_readReg (p w : Word) (q : Reg) : readReg (emitTrace p w s) q = readReg s q := rfl
@[simp] theorem emitTrace_loadWord (p w : Word) (b : Word) : loadWord (emitTrace p w s) b = loadWord s b := rfl
@[simp] theorem emitTrace_currentMode (p w : Word) : currentMode (emitTrace p w s) = currentMode s := rfl

/-! ## placeAtPc -/

@[simp] theorem placeAtPc_regs (w : Word) : (placeAtPc w s).regs = s.regs := rfl
@[simp] theorem placeAtPc_pc (w : Word) : (placeAtPc w s).pc = s.pc := rfl
@[simp] theorem placeAtPc_psr (w : Word) : (placeAtPc w s).psr = s.psr := rfl
@[simp] theorem placeAtPc_mem (w : Word) : (placeAtPc w s).mem = s.mem.write s.pc.toNat w := rfl
@[simp] theorem placeAtPc_sig (w : Word) : (placeAtPc w s).sig = s.sig := rfl
@[simp] theorem placeAtPc_trace (w : Word) : (placeAtPc w s).trace = s.trace := rfl
@[simp] theorem placeAtPc_readReg (w : Word) (q : Reg) : readReg (placeAtPc w s) q = readReg s q := rfl
@[simp] theorem placeAtPc_currentMode (w : Word) : currentMode (placeAtPc w s) = currentMode s := rfl

end Sys2Proof.Machine
end

