-- ==== Sys2Proof/Laws/Flags.lean ====
section
/-! SUPPORT. The fields of the status register after an update, and the condition code of a value. -/

namespace Sys2Proof.Machine

@[simp] theorem codeOf_withCode (c : BitVec 3) (psr : Word) : codeOf (withCode c psr) = c := by
  ext i hi
  have : i < 16 := by omega
  interval_cases i <;> simp [codeOf, withCode]

@[simp] theorem codeOf_withMode (m : Mode) (psr : Word) : codeOf (withMode m psr) = codeOf psr := by
  ext i hi
  cases m <;> interval_cases i <;> simp [codeOf, withMode, Config.privMask]

theorem modeOf_eq (psr : Word) : modeOf psr = if psr.msb then .supervisor else .user := by
  have h : (psr &&& Config.privMask = 0) ↔ psr.msb = false := by
    rw [BitVec.msb_eq_getLsbD_last]
    constructor
    · intro h
      have := congrArg (fun v => BitVec.getLsbD v 15) h
      simpa [Config.privMask] using this
    · intro h
      ext i hi
      interval_cases i <;> simp_all [Config.privMask]
  unfold modeOf
  by_cases hm : psr.msb
  · rw [if_neg (by rw [h, hm]; decide), if_pos hm]
  · rw [if_pos (h.2 (by simpa using hm)), if_neg hm]

@[simp] theorem modeOf_withMode (m : Mode) (psr : Word) : modeOf (withMode m psr) = m := by
  cases m <;> simp [modeOf_eq, withMode, Config.privMask, BitVec.msb_eq_getLsbD_last]

@[simp] theorem modeOf_withCode (c : BitVec 3) (psr : Word) : modeOf (withCode c psr) = modeOf psr := by
  simp [modeOf_eq, withCode, BitVec.msb_eq_getLsbD_last]

/-- The bits above the condition code stay (10_state.md R31). -/
@[simp] theorem upper_withCode (c : BitVec 3) (psr : Word) :
    (withCode c psr).extractLsb' 3 13 = psr.extractLsb' 3 13 := by
  ext i hi
  interval_cases i <;> simp [withCode]

@[simp] theorem reserved_withCode (c : BitVec 3) (psr : Word) :
    (withCode c psr).extractLsb' 3 12 = psr.extractLsb' 3 12 := by
  ext i hi
  interval_cases i <;> simp [withCode]

@[simp] theorem reserved_withMode (m : Mode) (psr : Word) :
    (withMode m psr).extractLsb' 3 12 = psr.extractLsb' 3 12 := by
  ext i hi
  cases m <;> interval_cases i <;> simp [withMode, Config.privMask]

/-- The code of a value by its sign (10_state.md R31). -/
theorem nzpCode_eq (c : Parameters) (v : Word) :
    nzpCode c v = if v.toInt < 0 then c.codeN else if v.toInt = 0 then c.codeZ else c.codeP := by
  have hn : (v.msb = true) ↔ v.toInt < 0 := BitVec.msb_eq_toInt (x := v) ▸ by simp
  have hz : (v = 0) ↔ v.toInt = 0 := by
    constructor
    · rintro rfl
      rfl
    · intro h
      exact BitVec.eq_of_toInt_eq (by rw [h]; rfl)
  simp only [nzpCode, hn, hz]

/-- The codes of a proper configuration do not overlap: a mask meets a code exactly when it names its flag (10_state.md R29). -/
theorem codes_disjoint {c : Parameters} (h : c.Proper) :
    (c.codeN ≠ 0 ∧ c.codeZ ≠ 0 ∧ c.codeP ≠ 0) ∧
    c.codeN &&& c.codeZ = 0 ∧ c.codeN &&& c.codeP = 0 ∧ c.codeZ &&& c.codeP = 0 := by
  have all : ∀ n z p : BitVec 3, [n, z, p].Perm [0b100, 0b010, 0b001] →
      (n ≠ 0 ∧ z ≠ 0 ∧ p ≠ 0) ∧ n &&& z = 0 ∧ n &&& p = 0 ∧ z &&& p = 0 := by decide +kernel
  exact all _ _ _ h.codes

/-- Whatever the order of the flags, a code that `SetNZP` writes is one flag's (10_state.md R30). -/
theorem oneFlagSet_withCode_nzpCode {c : Parameters} (h : c.Proper) (v psr : Word) :
    OneFlagSet (withCode (nzpCode c v) psr) := by
  have m : nzpCode c v ∈ [c.codeN, c.codeZ, c.codeP] := by
    unfold nzpCode
    split
    · simp
    · split <;> simp
  rw [h.codes.mem_iff] at m
  rw [OneFlagSet, codeOf_withCode]
  simpa [Config.codeN, Config.codeZ, Config.codeP] using m

theorem nzpCode_compareValue (c : Parameters) (a b : Int) :
    nzpCode c (compareValue a b) = if a < b then c.codeN else if a = b then c.codeZ else c.codeP := by
  unfold compareValue
  by_cases h : a < b
  · simp only [h, if_true]
    rfl
  · by_cases h' : a = b
    · simp only [h', lt_irrefl, if_false, if_true]
      rfl
    · simp only [h, h', if_false]
      rfl

theorem nzpCode_eq_signCode (v : Word) : nzpCode Config.standard v = signCode v.toInt := nzpCode_eq _ v

/-- A comparison's code is the sign of the exact difference (42_compare.md R160). -/
theorem nzpCode_compareValue_eq_signCode (a b : Int) :
    nzpCode Config.standard (compareValue a b) = signCode (a - b) := by
  rw [nzpCode_compareValue]
  unfold signCode
  by_cases h : a < b
  · rw [if_pos h, if_pos (by omega)]
    rfl
  · by_cases h' : a = b
    · rw [if_neg h, if_pos h', if_neg (by omega), if_pos (by omega)]
      rfl
    · rw [if_neg h, if_neg h', if_neg (by omega), if_neg (by omega)]
      rfl

end Sys2Proof.Machine
end

