-- ==== Sys2Proof/Laws/Memory.lean ====
section
/-! SUPPORT. Reading a word after writing one, and the canonical form of memory, which every memory operation keeps. -/

namespace Sys2Proof.Machine

theorem Memory.read_filter_other (m : Memory) (a b : Nat) (h : b ≠ a) :
    Memory.read (m.filter (fun c => c.1 != a)) b = m.read b := by
  induction m with
  | nil => rfl
  | cons c rest ih =>
    obtain ⟨k, w⟩ := c
    by_cases hk : k = a
    · have hb : ¬ k = b := fun e => h (e.symm.trans hk)
      simp [hk, Memory.read, ih, (hk ▸ hb : ¬ a = b)]
    · simp [hk, Memory.read, ih]

theorem Memory.read_filter_same (m : Memory) (a : Nat) :
    Memory.read (m.filter (fun c => c.1 != a)) a = Config.memoryReset := by
  induction m with
  | nil => rfl
  | cons c rest ih =>
    obtain ⟨k, w⟩ := c
    by_cases hk : k = a <;> simp [hk, Memory.read, ih]

theorem Memory.read_insertCell_same (m : Memory) (a : Nat) (v : Word) (h : ∀ c ∈ m, c.1 ≠ a) :
    Memory.read (Memory.insertCell a v m) a = v := by
  induction m with
  | nil => simp [Memory.insertCell, Memory.read]
  | cons c rest ih =>
    obtain ⟨k, w⟩ := c
    have hk : k ≠ a := h (k, w) (by simp)
    have hr : ∀ c ∈ rest, c.1 ≠ a := fun c hc => h c (by simp [hc])
    by_cases hlt : a < k <;> simp [Memory.insertCell, hlt, Memory.read, hk, ih hr]

theorem Memory.read_insertCell_other (m : Memory) (a b : Nat) (v : Word) (h : b ≠ a) :
    Memory.read (Memory.insertCell a v m) b = m.read b := by
  have hab : ¬ a = b := fun e => h e.symm
  induction m with
  | nil => simp [Memory.insertCell, Memory.read, hab]
  | cons c rest ih =>
    obtain ⟨k, w⟩ := c
    by_cases hlt : a < k
    · simp [Memory.insertCell, hlt, Memory.read, hab]
    · simp only [Memory.insertCell, hlt, if_false, Memory.read, ih]

/-- Reading the address written gives the word written, in any memory. -/
theorem Memory.read_write_same (m : Memory) (a : Nat) (v : Word) : (m.write a v).read a = v := by
  unfold Memory.write
  split
  · next h => rw [Memory.read_filter_same, h]
  · exact Memory.read_insertCell_same _ a v (by simp)

/-- A write leaves every other address alone, in any memory. -/
theorem Memory.read_write_other (m : Memory) (a b : Nat) (v : Word) (h : b ≠ a) : (m.write a v).read b = m.read b := by
  unfold Memory.write
  split
  · exact Memory.read_filter_other m a b h
  · rw [Memory.read_insertCell_other _ a b v h, Memory.read_filter_other m a b h]

theorem Memory.read_write (m : Memory) (a b : Nat) (v : Word) :
    (m.write a v).read b = if b = a then v else m.read b := by
  split
  · next h => rw [h, Memory.read_write_same]
  · next h => exact Memory.read_write_other m a b v h

theorem Memory.mem_insertCell (m : Memory) (a : Nat) (v : Word) (c : Nat × Word) :
    c ∈ Memory.insertCell a v m ↔ c = (a, v) ∨ c ∈ m := by
  induction m with
  | nil => simp [Memory.insertCell]
  | cons d rest ih =>
    obtain ⟨k, w⟩ := d
    by_cases hlt : a < k
    · simp [Memory.insertCell, hlt]
    · simp only [Memory.insertCell, hlt, if_false, List.mem_cons, ih]
      tauto

theorem Memory.rising_insertCell (m : Memory) (a : Nat) (v : Word) (hs : m.Pairwise (fun c d => c.1 < d.1))
    (h : ∀ c ∈ m, c.1 ≠ a) : (Memory.insertCell a v m).Pairwise (fun c d => c.1 < d.1) := by
  induction m with
  | nil => simp [Memory.insertCell]
  | cons d rest ih =>
    obtain ⟨k, w⟩ := d
    rw [List.pairwise_cons] at hs
    have hk : k ≠ a := h (k, w) (by simp)
    by_cases hlt : a < k
    · simp only [Memory.insertCell, hlt, if_true, List.pairwise_cons]
      refine ⟨fun c hc => ?_, hs.1, hs.2⟩
      rcases List.mem_cons.1 hc with rfl | hc
      · exact hlt
      · exact lt_trans hlt (hs.1 c hc)
    · simp only [Memory.insertCell, hlt, if_false, List.pairwise_cons]
      refine ⟨fun c hc => ?_, ih hs.2 (fun c hc => h c (by simp [hc]))⟩
      rcases (Memory.mem_insertCell rest a v c).1 hc with rfl | hc
      · show k < a
        omega
      · exact hs.1 c hc

@[simp] theorem Memory.wf_nil : Memory.wf [] := by
  simp [Memory.wf]

/-- Writing inside the address space keeps the canonical form. -/
theorem Memory.wf_write (m : Memory) (a : Nat) (v : Word) (ha : a < Config.memWords) (h : m.wf) : (m.write a v).wf := by
  have hf : Memory.wf (m.filter (fun c => c.1 != a)) :=
    ⟨h.1.filter _, fun c hc => h.2 c (List.mem_of_mem_filter hc)⟩
  unfold Memory.write
  split
  · exact hf
  · next hv =>
    refine ⟨Memory.rising_insertCell _ a v hf.1 (by simp), fun c hc => ?_⟩
    rcases (Memory.mem_insertCell _ a v c).1 hc with rfl | hc
    · exact ⟨ha, hv⟩
    · exact hf.2 c hc

theorem toNat_lt_memWords (a : Word) : a.toNat < Config.memWords := a.isLt

theorem loadWord_storeWord (s : State) (a b v : Word) :
    loadWord (storeWord a v s) b = if b = a then v else loadWord s b := by
  show (s.mem.write a.toNat v).read b.toNat = _
  rw [Memory.read_write]
  by_cases h : b = a
  · simp [h]
  · have : ¬ b.toNat = a.toNat := fun e => h (BitVec.eq_of_toNat_eq e)
    simp [h, this, loadWord]

/-- A store keeps the canonical form. -/
theorem storeWord_wf (s : State) (a v : Word) (h : s.mem.wf) : (storeWord a v s).mem.wf :=
  Memory.wf_write s.mem a.toNat v (toNat_lt_memWords a) h

/-- Placing a word where the next fetch reads keeps the canonical form. -/
theorem withFetchWord_wf (s : State) (nbits w : Nat) (h : s.mem.wf) : (s.withFetchWord nbits w).mem.wf :=
  storeWord_wf s s.pc _ h

/-- The next fetch reads the word placed. -/
theorem fetch_withFetchWord (s : State) (nbits w : Nat) :
    fetch (s.withFetchWord nbits w) = BitVec.ofNat 16 (w % 2 ^ nbits) := by
  show loadWord (storeWord s.pc _ s) s.pc = _
  rw [loadWord_storeWord, if_pos rfl]

theorem loadWords_wf (ws : List Word) (a : Nat) (m m' : Memory) (h : m.wf) (hl : loadWords a ws m = some m') : m'.wf := by
  induction ws generalizing a m with
  | nil =>
    simp only [loadWords, Option.some.injEq] at hl
    exact hl ▸ h
  | cons w ws ih =>
    simp only [loadWords] at hl
    split at hl
    · next ha => exact ih (a + 1) (m.write a w) (Memory.wf_write m a w ha h) hl
    · exact absurd hl (by simp)

/-- The loader keeps the canonical form. -/
theorem loadSegments_wf (gs : List Segment) (m m' : Memory) (h : m.wf) (hl : loadSegments gs m = some m') : m'.wf := by
  induction gs generalizing m with
  | nil =>
    simp only [loadSegments, Option.some.injEq] at hl
    exact hl ▸ h
  | cons g gs ih =>
    simp only [loadSegments, Option.bind_eq_some_iff] at hl
    obtain ⟨m1, h1, h2⟩ := hl
    exact ih m1 (loadWords_wf g.words g.start m m1 h h1) h2

end Sys2Proof.Machine
end

