-- ==== Sys2Proof/Laws/Registers.lean ====
section
/-! SUPPORT. Reading a register after writing one. -/

namespace Sys2Proof.Machine

/-- A register file read after a write: the value at the register written, the old one elsewhere. -/
theorem RegFile.get_set (f : RegFile) (r q : Reg) (v : Word) :
    (f.set r v).get q = if q = r then v else f.get q := by
  cases r <;> cases q <;> rfl

@[simp] theorem RegFile.get_set_same (f : RegFile) (r : Reg) (v : Word) : (f.set r v).get r = v := by
  rw [RegFile.get_set, if_pos rfl]

theorem RegFile.get_set_other (f : RegFile) {r q : Reg} (v : Word) (h : q ≠ r) : (f.set r v).get q = f.get q := by
  rw [RegFile.get_set, if_neg h]

/-- Two register files that read the same everywhere are the same. -/
theorem RegFile.ext_get (f g : RegFile) (h : ∀ r, f.get r = g.get r) : f = g := by
  cases f
  cases g
  simp only [RegFile.mk.injEq]
  exact ⟨h .r0, h .r1, h .r2, h .r3, h .r4, h .r5, h .r6, h .r7⟩

theorem readReg_writeReg (s : State) (r q : Reg) (v : Word) :
    readReg (writeReg r v s) q = if q = r then v else readReg s q :=
  RegFile.get_set s.regs r q v

@[simp] theorem readReg_writeReg_same (s : State) (r : Reg) (v : Word) : readReg (writeReg r v s) r = v :=
  RegFile.get_set_same s.regs r v

end Sys2Proof.Machine
end

