-- ==== Sys2Proof/Laws/Ops.lean ====
section
/-! SUPPORT. For each shared operation, one lemma that says once everything it can do; the inversion of a cycle. -/

namespace Sys2Proof.Machine

variable (s : State)

/-- Everything `R[rd] <- v ; SetNZP(v) ; pc <- PC + 1` does. -/
theorem writeResult_eq (c : Parameters) (rd : Reg) (v : Word) :
    writeResult c rd v s =
      { s with
        regs := s.regs.set rd v
        pc := s.pc + 1
        psr := withCode (nzpCode c v) s.psr
        sig := { s.sig with regWE := true, rdSel := rd.toBits, nzpWE := true, nzpCode := nzpCode c v } } := rfl

@[simp] theorem writeResult_regs (c : Parameters) (rd : Reg) (v : Word) : (writeResult c rd v s).regs = s.regs.set rd v := rfl
@[simp] theorem writeResult_pc (c : Parameters) (rd : Reg) (v : Word) : (writeResult c rd v s).pc = s.pc + 1 := rfl
@[simp] theorem writeResult_psr (c : Parameters) (rd : Reg) (v : Word) : (writeResult c rd v s).psr = withCode (nzpCode c v) s.psr := rfl
@[simp] theorem writeResult_mem (c : Parameters) (rd : Reg) (v : Word) : (writeResult c rd v s).mem = s.mem := rfl
@[simp] theorem writeResult_trace (c : Parameters) (rd : Reg) (v : Word) : (writeResult c rd v s).trace = s.trace := rfl

theorem writeResult_readReg (c : Parameters) (rd q : Reg) (v : Word) :
    readReg (writeResult c rd v s) q = if q = rd then v else readReg s q :=
  RegFile.get_set s.regs rd q v

@[simp] theorem writeResult_loadWord (c : Parameters) (rd : Reg) (v b : Word) : loadWord (writeResult c rd v s) b = loadWord s b := rfl

/-- Everything a comparison does: the flags and PC. -/
theorem compareThen_eq (c : Parameters) (a b : Int) :
    compareThen c a b s =
      { s with
        pc := s.pc + 1
        psr := withCode (nzpCode c (compareValue a b)) s.psr
        sig := { s.sig with nzpWE := true, nzpCode := nzpCode c (compareValue a b) } } := rfl

/-- Everything a branch does: PC, by the mask test. -/
theorem branchOn_eq (mask : BitVec 3) (imm : Word) :
    branchOn mask imm s = { s with pc := if mask &&& codeOf s.psr ≠ 0 then s.pc + 1 + imm else s.pc + 1 } := by
  unfold branchOn
  split <;> rfl

/-- Everything the link write does. -/
theorem link_eq :
    link s = { s with
      regs := s.regs.set .r7 (s.pc + 1), sig := { s.sig with regWE := true, rdSel := Reg.toBits .r7 } } := rfl

/-- Everything entering a trap does (49_trap_rti.md R231). -/
theorem enterTrap_eq (c : Parameters) (imm : BitVec 8) :
    enterTrap c imm s =
      { s with
        regs := s.regs.set .r7 (s.pc + 1)
        pc := Config.trapBase ||| zext 8 imm
        psr := withMode .supervisor (withCode (nzpCode c (s.pc + 1)) s.psr)
        sig := { s.sig with
          regWE := true, rdSel := Reg.toBits .r7, nzpWE := true, nzpCode := nzpCode c (s.pc + 1) } } := rfl

/-- Everything returning from a trap does (49_trap_rti.md R233). -/
theorem returnFromTrap_eq :
    returnFromTrap s = { s with pc := readReg s .r7, psr := withMode .user s.psr } := rfl

/-- Everything LDR can do (47_load_store.md R211), under any configuration. -/
theorem execLdrUnder_cases (c : Parameters) (rd rs : Reg) (imm : Word) :
    let ea := effectiveAddress rs imm s
    (denied (currentMode s) ea = true ∧ execLdrUnder c rd rs imm s = .fault (.dataPermission ea)) ∨
    (denied (currentMode s) ea = false ∧ execLdrUnder c rd rs imm s =
      .next (writeResult c rd (loadWord s ea) (driveLoad ea (loadWord s ea) (selectRs rs s)))) := by
  intro ea
  by_cases h : denied (currentMode s) ea = true
  · exact Or.inl ⟨h, if_pos h⟩
  · exact Or.inr ⟨by simpa using h, if_neg h⟩

/-- Everything LDR can do (47_load_store.md R211). -/
theorem execLdr_cases (rd rs : Reg) (imm : Word) :
    let ea := effectiveAddress rs imm s
    (denied (currentMode s) ea = true ∧ execLdr rd rs imm s = .fault (.dataPermission ea)) ∨
    (denied (currentMode s) ea = false ∧ execLdr rd rs imm s =
      .next (writeResult Config.standard rd (loadWord s ea) (driveLoad ea (loadWord s ea) (selectRs rs s)))) :=
  execLdrUnder_cases s Config.standard rd rs imm

/-- Everything STR can do (47_load_store.md R212). -/
theorem execStr_cases (rt rs : Reg) (imm : Word) :
    let ea := effectiveAddress rs imm s
    (denied (currentMode s) ea = true ∧ execStr rt rs imm s = .fault (.dataPermission ea)) ∨
    (denied (currentMode s) ea = false ∧
      execStr rt rs imm s = .next (advancePc (storeWord ea (readReg s rt)
        (driveStore ea (readReg s rt) (selectRt rt (selectRs rs s)))))) := by
  intro ea
  by_cases h : denied (currentMode s) ea = true
  · exact Or.inl ⟨h, if_pos h⟩
  · exact Or.inr ⟨by simpa using h, if_neg h⟩

/-- `Denied` on numbers (20_memory.md R58). -/
theorem denied_user (a : Word) : denied .user a = true ↔ 0x7FFF < a.toNat ∧ a.toNat < 0xFFFF := by
  simp [denied, Config.userTop, Config.userOpenTop]

theorem denied_supervisor (a : Word) : denied .supervisor a = true ↔ a.toNat ≤ 0x7FFF := by
  simp [denied, Config.userTop]

/-! ## A cycle -/

theorem finishCycle_next (p w : Word) (a : Answer) (t : State) :
    finishCycle p w a = .next t ↔ ∃ u, a = .next u ∧ t = clearSignals (emitTrace p w u) := by
  cases a <;> simp [finishCycle, eq_comm]

theorem finishCycle_fault (p w : Word) (a : Answer) (f : Fault) : finishCycle p w a = .fault f ↔ a = .fault f := by
  cases a <;> simp [finishCycle]

theorem finishCycle_refused (p w : Word) (a : Answer) (r : Refusal) :
    finishCycle p w a = .refused r ↔ a = .refused r := by
  cases a <;> simp [finishCycle]

/-- What the cycle of a decoder and a dispatcher is, by the order of the tests (60_exceptions.md R247): halted, denied, or the
decoded instruction. -/
theorem haltTest_cases (dec : Word → Instr) (ex : Instr → State → Answer) :
    (halted s = true ∧ haltTest (runCycleWith dec ex) s = .next s) ∨
    (halted s = false ∧ fetchDenied s = true ∧ haltTest (runCycleWith dec ex) s = .fault (.fetchPermission s.pc)) ∨
    (halted s = false ∧ fetchDenied s = false ∧
      haltTest (runCycleWith dec ex) s = finishCycle s.pc (fetch s) (ex (dec (fetch s)) s)) := by
  by_cases hh : halted s = true
  · exact Or.inl ⟨hh, if_pos hh⟩
  · have hc : haltTest (runCycleWith dec ex) s = runCycleWith dec ex s := if_neg hh
    by_cases hd : fetchDenied s = true
    · exact Or.inr (Or.inl ⟨by simpa using hh, hd, hc.trans (if_pos hd)⟩)
    · exact Or.inr (Or.inr ⟨by simpa using hh, by simpa using hd, hc.trans (if_neg hd)⟩)

/-- If such a cycle answers a next state, the machine was halted and is unchanged, or the decoded instruction ran and the
record was emitted and the signals cleared. -/
theorem haltTest_next {dec : Word → Instr} {ex : Instr → State → Answer} {s t : State}
    (h : haltTest (runCycleWith dec ex) s = .next t) :
    (halted s = true ∧ t = s) ∨
    (halted s = false ∧ fetchDenied s = false ∧ ∃ u, ex (dec (fetch s)) s = .next u ∧
      t = clearSignals (emitTrace s.pc (fetch s) u)) := by
  rcases haltTest_cases s dec ex with ⟨hh, e⟩ | ⟨_, _, e⟩ | ⟨hh, hd, e⟩
  · rw [e] at h
    exact Or.inl ⟨hh, (Host.Outcome.next.inj h).symm⟩
  · rw [e] at h
    exact absurd h (by simp)
  · rw [e, finishCycle_next] at h
    exact Or.inr ⟨hh, hd, h⟩

/-- What a step is. -/
theorem step_cases :
    (halted s = true ∧ step s = .next s) ∨
    (halted s = false ∧ fetchDenied s = true ∧ step s = .fault (.fetchPermission s.pc)) ∨
    (halted s = false ∧ fetchDenied s = false ∧
      step s = finishCycle s.pc (fetch s) (exec (decode (fetch s)) s)) :=
  haltTest_cases s decode exec

/-- What a step that answers a next state did. -/
theorem step_next {s t : State} (h : step s = .next t) :
    (halted s = true ∧ t = s) ∨
    (halted s = false ∧ fetchDenied s = false ∧ ∃ u, exec (decode (fetch s)) s = .next u ∧
      t = clearSignals (emitTrace s.pc (fetch s) u)) :=
  haltTest_next h

/-- What a step under a configuration is. -/
theorem stepUnder_cases (c : Parameters) :
    (halted s = true ∧ stepUnder c s = .next s) ∨
    (halted s = false ∧ fetchDenied s = true ∧ stepUnder c s = .fault (.fetchPermission s.pc)) ∨
    (halted s = false ∧ fetchDenied s = false ∧
      stepUnder c s = finishCycle s.pc (fetch s) (execUnder c (decodeUnder c (fetch s)) s)) :=
  haltTest_cases s (decodeUnder c) (execUnder c)

/-- What a step under a configuration that answers a next state did. -/
theorem stepUnder_next {c : Parameters} {s t : State} (h : stepUnder c s = .next t) :
    (halted s = true ∧ t = s) ∨
    (halted s = false ∧ fetchDenied s = false ∧ ∃ u, execUnder c (decodeUnder c (fetch s)) s = .next u ∧
      t = clearSignals (emitTrace s.pc (fetch s) u)) :=
  haltTest_next h

theorem halted_iff : halted s = true ↔ s.pc = 0x80FF := beq_iff_eq

theorem mayRun_iff : MayRun s ↔ s.pc ≠ 0x80FF := by
  rw [MayRun, Bool.eq_false_iff, Ne, halted_iff]

/-- When a step faults: the fetch check, or the decoded instruction. -/
theorem step_fault_iff (f : Fault) :
    step s = .fault f ↔ halted s = false ∧
      ((fetchDenied s = true ∧ f = .fetchPermission s.pc) ∨
       (fetchDenied s = false ∧ exec (decode (fetch s)) s = .fault f)) := by
  rcases step_cases s with ⟨h, e⟩ | ⟨h, h', e⟩ | ⟨h, h', e⟩
  · simp [e, h]
  · simp [e, h, h', eq_comm]
  · simp [e, h, h', finishCycle_fault]

/-! ## Runs -/

theorem runLoop_zero : runLoop 0 s = if halted s then .halted s else .running s := rfl

theorem runLoop_succ (n : Nat) :
    runLoop (n + 1) s =
      if halted s then .halted s
      else match runCycle s with
        | .next t => runLoop n t
        | .fault cause => .failed (clearSignals s) cause
        | .refused why => .refused (clearSignals s) why := rfl

theorem run_step_next (M : Host.Core) (n : Nat) (a b : M.State) (h : M.step a = .next b) :
    M.run (n + 1) a = M.run n b := by
  simp only [Host.Core.run, h]

theorem run_step_fault (M : Host.Core) (n : Nat) (a : M.State) (f : M.Fault) (h : M.step a = .fault f) :
    M.run (n + 1) a = .fault f := by
  simp only [Host.Core.run, h]

end Sys2Proof.Machine
end

