-- ==== Sys2Proof/Laws/PerInstr.lean ====
section
/-! SUPPORT. The families of statements made per instruction. `EncodeRow`: the word the encoder writes has the fixed bits of
the instruction's row of spec/opcode_table.json (30_encoding.md R97). -/

namespace Sys2Proof

/-- The encoder writes the `match` bits under the `mask` of the instruction's row (30_encoding.md R97). -/
def Laws.EncodeRow.Statement (i : Instr) : Prop := encode i &&& rowMask i = rowMatch i

/-- Two words are equal when their sixteen bits are. -/
theorem Laws.word_ext {v w : Word} (h : ∀ i : Fin 16, v.getLsbD i = w.getLsbD i) : v = w :=
  BitVec.eq_of_getLsbD_eq fun i hi => h ⟨i, hi⟩

theorem Laws.EncodeRow.nop : Laws.EncodeRow.Statement .nop := by
  refine Laws.word_ext fun i => ?_
  fin_cases i <;> simp [encode, encodeUnder, place, encodeBranch, placeOpcode, Config.opcodeOf, Config.branchSubop, rowMask, rowMatch]

theorem Laws.EncodeRow.brp (imm : Word) : Laws.EncodeRow.Statement (.brp imm) := by
  refine Laws.word_ext fun i => ?_
  fin_cases i <;> simp [encode, encodeUnder, place, encodeBranch, placeOpcode, Config.opcodeOf, Config.branchSubop, rowMask, rowMatch]

theorem Laws.EncodeRow.brz (imm : Word) : Laws.EncodeRow.Statement (.brz imm) := by
  refine Laws.word_ext fun i => ?_
  fin_cases i <;> simp [encode, encodeUnder, place, encodeBranch, placeOpcode, Config.opcodeOf, Config.branchSubop, rowMask, rowMatch]

theorem Laws.EncodeRow.brzp (imm : Word) : Laws.EncodeRow.Statement (.brzp imm) := by
  refine Laws.word_ext fun i => ?_
  fin_cases i <;> simp [encode, encodeUnder, place, encodeBranch, placeOpcode, Config.opcodeOf, Config.branchSubop, rowMask, rowMatch]

theorem Laws.EncodeRow.brn (imm : Word) : Laws.EncodeRow.Statement (.brn imm) := by
  refine Laws.word_ext fun i => ?_
  fin_cases i <;> simp [encode, encodeUnder, place, encodeBranch, placeOpcode, Config.opcodeOf, Config.branchSubop, rowMask, rowMatch]

theorem Laws.EncodeRow.brnp (imm : Word) : Laws.EncodeRow.Statement (.brnp imm) := by
  refine Laws.word_ext fun i => ?_
  fin_cases i <;> simp [encode, encodeUnder, place, encodeBranch, placeOpcode, Config.opcodeOf, Config.branchSubop, rowMask, rowMatch]

theorem Laws.EncodeRow.brnz (imm : Word) : Laws.EncodeRow.Statement (.brnz imm) := by
  refine Laws.word_ext fun i => ?_
  fin_cases i <;> simp [encode, encodeUnder, place, encodeBranch, placeOpcode, Config.opcodeOf, Config.branchSubop, rowMask, rowMatch]

theorem Laws.EncodeRow.brnzp (imm : Word) : Laws.EncodeRow.Statement (.brnzp imm) := by
  refine Laws.word_ext fun i => ?_
  fin_cases i <;> simp [encode, encodeUnder, place, encodeBranch, placeOpcode, Config.opcodeOf, Config.branchSubop, rowMask, rowMatch]

theorem Laws.EncodeRow.add (rd : Reg) (rs : Reg) (rt : Reg) : Laws.EncodeRow.Statement (.add rd rs rt) := by
  refine Laws.word_ext fun i => ?_
  fin_cases i <;> simp [encode, encodeUnder, place, encodeRegForm, placeOpcode, placeReg, Config.opcodeOf, Config.arithSubop, rowMask, rowMatch]

theorem Laws.EncodeRow.mul (rd : Reg) (rs : Reg) (rt : Reg) : Laws.EncodeRow.Statement (.mul rd rs rt) := by
  refine Laws.word_ext fun i => ?_
  fin_cases i <;> simp [encode, encodeUnder, place, encodeRegForm, placeOpcode, placeReg, Config.opcodeOf, Config.arithSubop, rowMask, rowMatch]

theorem Laws.EncodeRow.sub (rd : Reg) (rs : Reg) (rt : Reg) : Laws.EncodeRow.Statement (.sub rd rs rt) := by
  refine Laws.word_ext fun i => ?_
  fin_cases i <;> simp [encode, encodeUnder, place, encodeRegForm, placeOpcode, placeReg, Config.opcodeOf, Config.arithSubop, rowMask, rowMatch]

theorem Laws.EncodeRow.div (rd : Reg) (rs : Reg) (rt : Reg) : Laws.EncodeRow.Statement (.div rd rs rt) := by
  refine Laws.word_ext fun i => ?_
  fin_cases i <;> simp [encode, encodeUnder, place, encodeRegForm, placeOpcode, placeReg, Config.opcodeOf, Config.arithSubop, rowMask, rowMatch]

theorem Laws.EncodeRow.addi (rd : Reg) (rs : Reg) (imm : Word) : Laws.EncodeRow.Statement (.addi rd rs imm) := by
  refine Laws.word_ext fun i => ?_
  fin_cases i <;> simp [encode, encodeUnder, place, encodeImmForm, placeOpcode, placeReg, Config.opcodeOf, rowMask, rowMatch]

theorem Laws.EncodeRow.cmp (rs : Reg) (rt : Reg) : Laws.EncodeRow.Statement (.cmp rs rt) := by
  refine Laws.word_ext fun i => ?_
  fin_cases i <;> simp [encode, encodeUnder, place, encodeCompare, placeOpcode, placeReg, Config.opcodeOf, Config.cmpSubop, rowMask, rowMatch]

theorem Laws.EncodeRow.cmpu (rs : Reg) (rt : Reg) : Laws.EncodeRow.Statement (.cmpu rs rt) := by
  refine Laws.word_ext fun i => ?_
  fin_cases i <;> simp [encode, encodeUnder, place, encodeCompare, placeOpcode, placeReg, Config.opcodeOf, Config.cmpSubop, rowMask, rowMatch]

theorem Laws.EncodeRow.cmpi (rs : Reg) (imm : Word) : Laws.EncodeRow.Statement (.cmpi rs imm) := by
  refine Laws.word_ext fun i => ?_
  fin_cases i <;> simp [encode, encodeUnder, place, encodeCompare, placeOpcode, placeReg, Config.opcodeOf, Config.cmpSubop, rowMask, rowMatch]

theorem Laws.EncodeRow.cmpiu (rs : Reg) (imm : Word) : Laws.EncodeRow.Statement (.cmpiu rs imm) := by
  refine Laws.word_ext fun i => ?_
  fin_cases i <;> simp [encode, encodeUnder, place, encodeCompare, placeOpcode, placeReg, Config.opcodeOf, Config.cmpSubop, rowMask, rowMatch]

theorem Laws.EncodeRow.jsrr (rs : Reg) : Laws.EncodeRow.Statement (.jsrr rs) := by
  refine Laws.word_ext fun i => ?_
  fin_cases i <;> simp [encode, encodeUnder, place, encodeJumpReg, placeOpcode, placeReg, Config.opcodeOf, rowMask, rowMatch]

theorem Laws.EncodeRow.jsr (imm11 : BitVec 11) : Laws.EncodeRow.Statement (.jsr imm11) := by
  refine Laws.word_ext fun i => ?_
  fin_cases i <;> simp [encode, encodeUnder, place, encodeJumpImm, placeOpcode, Config.opcodeOf, rowMask, rowMatch]

theorem Laws.EncodeRow.and (rd : Reg) (rs : Reg) (rt : Reg) : Laws.EncodeRow.Statement (.and rd rs rt) := by
  refine Laws.word_ext fun i => ?_
  fin_cases i <;> simp [encode, encodeUnder, place, encodeRegForm, placeOpcode, placeReg, Config.opcodeOf, Config.logicSubop, rowMask, rowMatch]

theorem Laws.EncodeRow.not (rd : Reg) (rs : Reg) : Laws.EncodeRow.Statement (.not rd rs) := by
  refine Laws.word_ext fun i => ?_
  fin_cases i <;> simp [encode, encodeUnder, place, encodeRegForm, placeOpcode, placeReg, Config.opcodeOf, Config.logicSubop, rowMask, rowMatch]

theorem Laws.EncodeRow.or (rd : Reg) (rs : Reg) (rt : Reg) : Laws.EncodeRow.Statement (.or rd rs rt) := by
  refine Laws.word_ext fun i => ?_
  fin_cases i <;> simp [encode, encodeUnder, place, encodeRegForm, placeOpcode, placeReg, Config.opcodeOf, Config.logicSubop, rowMask, rowMatch]

theorem Laws.EncodeRow.xor (rd : Reg) (rs : Reg) (rt : Reg) : Laws.EncodeRow.Statement (.xor rd rs rt) := by
  refine Laws.word_ext fun i => ?_
  fin_cases i <;> simp [encode, encodeUnder, place, encodeRegForm, placeOpcode, placeReg, Config.opcodeOf, Config.logicSubop, rowMask, rowMatch]

theorem Laws.EncodeRow.andi (rd : Reg) (rs : Reg) (imm : Word) : Laws.EncodeRow.Statement (.andi rd rs imm) := by
  refine Laws.word_ext fun i => ?_
  fin_cases i <;> simp [encode, encodeUnder, place, encodeImmForm, placeOpcode, placeReg, Config.opcodeOf, rowMask, rowMatch]

theorem Laws.EncodeRow.ldr (rd : Reg) (rs : Reg) (imm : Word) : Laws.EncodeRow.Statement (.ldr rd rs imm) := by
  refine Laws.word_ext fun i => ?_
  fin_cases i <;> simp [encode, encodeUnder, place, encodeMem, placeOpcode, placeReg, Config.opcodeOf, rowMask, rowMatch]

theorem Laws.EncodeRow.str (rt : Reg) (rs : Reg) (imm : Word) : Laws.EncodeRow.Statement (.str rt rs imm) := by
  refine Laws.word_ext fun i => ?_
  fin_cases i <;> simp [encode, encodeUnder, place, encodeMem, placeOpcode, placeReg, Config.opcodeOf, rowMask, rowMatch]

theorem Laws.EncodeRow.rti : Laws.EncodeRow.Statement .rti := by
  refine Laws.word_ext fun i => ?_
  fin_cases i <;> simp [encode, encodeUnder, place, placeOpcode, Config.opcodeOf, rowMask, rowMatch]

theorem Laws.EncodeRow.const (rd : Reg) (imm : Word) : Laws.EncodeRow.Statement (.const rd imm) := by
  refine Laws.word_ext fun i => ?_
  fin_cases i <;> simp [encode, encodeUnder, place, placeOpcode, placeReg, Config.opcodeOf, rowMask, rowMatch]

theorem Laws.EncodeRow.sll (rd : Reg) (rs : Reg) (amt : BitVec 4) : Laws.EncodeRow.Statement (.sll rd rs amt) := by
  refine Laws.word_ext fun i => ?_
  fin_cases i <;> simp [encode, encodeUnder, place, encodeShift, placeOpcode, placeReg, Config.opcodeOf, Config.shiftSubop, rowMask, rowMatch]

theorem Laws.EncodeRow.sra (rd : Reg) (rs : Reg) (amt : BitVec 4) : Laws.EncodeRow.Statement (.sra rd rs amt) := by
  refine Laws.word_ext fun i => ?_
  fin_cases i <;> simp [encode, encodeUnder, place, encodeShift, placeOpcode, placeReg, Config.opcodeOf, Config.shiftSubop, rowMask, rowMatch]

theorem Laws.EncodeRow.srl (rd : Reg) (rs : Reg) (amt : BitVec 4) : Laws.EncodeRow.Statement (.srl rd rs amt) := by
  refine Laws.word_ext fun i => ?_
  fin_cases i <;> simp [encode, encodeUnder, place, encodeShift, placeOpcode, placeReg, Config.opcodeOf, Config.shiftSubop, rowMask, rowMatch]

theorem Laws.EncodeRow.mod (rd : Reg) (rs : Reg) (rt : Reg) : Laws.EncodeRow.Statement (.mod rd rs rt) := by
  refine Laws.word_ext fun i => ?_
  fin_cases i <;> simp [encode, encodeUnder, place, encodeShift, placeOpcode, placeReg, Config.opcodeOf, Config.shiftSubop, rowMask, rowMatch]

theorem Laws.EncodeRow.jmpr (rs : Reg) : Laws.EncodeRow.Statement (.jmpr rs) := by
  refine Laws.word_ext fun i => ?_
  fin_cases i <;> simp [encode, encodeUnder, place, encodeJumpReg, placeOpcode, placeReg, Config.opcodeOf, rowMask, rowMatch]

theorem Laws.EncodeRow.jmp (imm : Word) : Laws.EncodeRow.Statement (.jmp imm) := by
  refine Laws.word_ext fun i => ?_
  fin_cases i <;> simp [encode, encodeUnder, place, encodeJumpImm, placeOpcode, Config.opcodeOf, rowMask, rowMatch]

theorem Laws.EncodeRow.hiconst (rd : Reg) (imm8 : BitVec 8) : Laws.EncodeRow.Statement (.hiconst rd imm8) := by
  refine Laws.word_ext fun i => ?_
  fin_cases i <;> simp [encode, encodeUnder, place, placeOpcode, placeReg, Config.opcodeOf, rowMask, rowMatch]

theorem Laws.EncodeRow.trap (imm8 : BitVec 8) : Laws.EncodeRow.Statement (.trap imm8) := by
  refine Laws.word_ext fun i => ?_
  fin_cases i <;> simp [encode, encodeUnder, place, placeOpcode, Config.opcodeOf, rowMask, rowMatch]

theorem Laws.EncodeRow.illegal3 (low : BitVec 12) : Laws.EncodeRow.Statement (.illegal3 low) := by
  refine Laws.word_ext fun i => ?_
  fin_cases i <;> simp [encode, encodeUnder, place, rowMask, rowMatch]

theorem Laws.EncodeRow.illegalB (low : BitVec 12) : Laws.EncodeRow.Statement (.illegalB low) := by
  refine Laws.word_ext fun i => ?_
  fin_cases i <;> simp [encode, encodeUnder, place, rowMask, rowMatch]

theorem Laws.EncodeRow.illegalE (low : BitVec 12) : Laws.EncodeRow.Statement (.illegalE low) := by
  refine Laws.word_ext fun i => ?_
  fin_cases i <;> simp [encode, encodeUnder, place, rowMask, rowMatch]

end Sys2Proof
end

