-- ==== Sys2Proof/Tests/Slice0.lean ====
section
/-! SUPPORT. Tests: the WellFormed checks, every constructor's decoding on a word written out from the patterns of
30_encoding.md R97, one or two single steps of each instruction with the result 95_test_vectors.md gives, and a witness for the
hypotheses of every statement that has some. -/

namespace Sys2Proof.Tests

open Sys2Proof Sys2Proof.Machine

/-! ## WellFormed: each check refuses an ill-formed term and admits its boundary values (30_encoding.md R84, R85) -/

theorem test_wellFormed_brp : WellFormed (.brp 0x0100) = false ∧ WellFormed (.brp 0xFEFF) = false ∧
    WellFormed (.brp 0x00FF) = true ∧ WellFormed (.brp 0xFF00) = true := by decide

theorem test_wellFormed_brz : WellFormed (.brz 0x0100) = false ∧ WellFormed (.brz 0xFEFF) = false ∧
    WellFormed (.brz 0x00FF) = true ∧ WellFormed (.brz 0xFF00) = true := by decide

theorem test_wellFormed_brzp : WellFormed (.brzp 0x0100) = false ∧ WellFormed (.brzp 0xFEFF) = false ∧
    WellFormed (.brzp 0x00FF) = true ∧ WellFormed (.brzp 0xFF00) = true := by decide

theorem test_wellFormed_brn : WellFormed (.brn 0x0100) = false ∧ WellFormed (.brn 0xFEFF) = false ∧
    WellFormed (.brn 0x00FF) = true ∧ WellFormed (.brn 0xFF00) = true := by decide

theorem test_wellFormed_brnp : WellFormed (.brnp 0x0100) = false ∧ WellFormed (.brnp 0xFEFF) = false ∧
    WellFormed (.brnp 0x00FF) = true ∧ WellFormed (.brnp 0xFF00) = true := by decide

theorem test_wellFormed_brnz : WellFormed (.brnz 0x0100) = false ∧ WellFormed (.brnz 0xFEFF) = false ∧
    WellFormed (.brnz 0x00FF) = true ∧ WellFormed (.brnz 0xFF00) = true := by decide

theorem test_wellFormed_brnzp : WellFormed (.brnzp 0x0100) = false ∧ WellFormed (.brnzp 0xFEFF) = false ∧
    WellFormed (.brnzp 0x00FF) = true ∧ WellFormed (.brnzp 0xFF00) = true := by decide

theorem test_wellFormed_addi : WellFormed (.addi .r1 .r2 0x0010) = false ∧ WellFormed (.addi .r1 .r2 0xFFEF) = false ∧
    WellFormed (.addi .r1 .r2 0x000F) = true ∧ WellFormed (.addi .r1 .r2 0xFFF0) = true := by decide

theorem test_wellFormed_andi : WellFormed (.andi .r1 .r2 0x0010) = false ∧ WellFormed (.andi .r1 .r2 0xFFEF) = false ∧
    WellFormed (.andi .r1 .r2 0x000F) = true ∧ WellFormed (.andi .r1 .r2 0xFFF0) = true := by decide

theorem test_wellFormed_ldr : WellFormed (.ldr .r1 .r2 0x0020) = false ∧ WellFormed (.ldr .r1 .r2 0xFFDF) = false ∧
    WellFormed (.ldr .r1 .r2 0x001F) = true ∧ WellFormed (.ldr .r1 .r2 0xFFE0) = true := by decide

theorem test_wellFormed_str : WellFormed (.str .r1 .r2 0x0020) = false ∧ WellFormed (.str .r1 .r2 0xFFDF) = false ∧
    WellFormed (.str .r1 .r2 0x001F) = true ∧ WellFormed (.str .r1 .r2 0xFFE0) = true := by decide

theorem test_wellFormed_const : WellFormed (.const .r1 0x0100) = false ∧ WellFormed (.const .r1 0xFEFF) = false ∧
    WellFormed (.const .r1 0x00FF) = true ∧ WellFormed (.const .r1 0xFF00) = true := by decide

theorem test_wellFormed_jmp : WellFormed (.jmp 0x0400) = false ∧ WellFormed (.jmp 0xFBFF) = false ∧
    WellFormed (.jmp 0x03FF) = true ∧ WellFormed (.jmp 0xFC00) = true := by decide

theorem test_wellFormed_cmpi : WellFormed (.cmpi .r1 0x0040) = false ∧ WellFormed (.cmpi .r1 0xFFBF) = false ∧
    WellFormed (.cmpi .r1 0x003F) = true ∧ WellFormed (.cmpi .r1 0xFFC0) = true := by decide

theorem test_wellFormed_cmpiu : WellFormed (.cmpiu .r1 0x0080) = false ∧ WellFormed (.cmpiu .r1 0xFFFF) = false ∧
    WellFormed (.cmpiu .r1 0x0000) = true ∧ WellFormed (.cmpiu .r1 0x007F) = true := by decide

/-! ## Decode: words written out bit by bit from the patterns of 30_encoding.md R97; ignored bits are set (R83) -/

theorem test_decode_nop : decode 0b0000_000_101010101 = .nop := by decide

theorem test_decode_brp : decode 0b0000_001_000000101 = .brp 5 := by decide

theorem test_decode_brz : decode 0b0000_010_111111111 = .brz 0xFFFF := by decide

theorem test_decode_brzp : decode 0b0000_011_000000101 = .brzp 5 := by decide

theorem test_decode_brn : decode 0b0000_100_100000000 = .brn 0xFF00 := by decide

theorem test_decode_brnp : decode 0b0000_101_000000101 = .brnp 5 := by decide

theorem test_decode_brnz : decode 0b0000_110_011111111 = .brnz 0x00FF := by decide

theorem test_decode_brnzp : decode 0b0000_111_111111101 = .brnzp 0xFFFD := by decide

theorem test_decode_add : decode 0b0001_001_010_000_011 = .add .r1 .r2 .r3 := by decide

theorem test_decode_mul : decode 0b0001_100_101_001_110 = .mul .r4 .r5 .r6 := by decide

theorem test_decode_sub : decode 0b0001_111_000_010_001 = .sub .r7 .r0 .r1 := by decide

theorem test_decode_div : decode 0b0001_010_011_011_100 = .div .r2 .r3 .r4 := by decide

theorem test_decode_addi : decode 0b0001_001_010_1_10000 = .addi .r1 .r2 0xFFF0 := by decide

theorem test_decode_cmp : decode 0b0010_001_00_1111_000 = .cmp .r1 .r0 := by decide

theorem test_decode_cmpu : decode 0b0010_011_01_1010_101 = .cmpu .r3 .r5 := by decide

theorem test_decode_cmpi : decode 0b0010_001_10_1000000 = .cmpi .r1 0xFFC0 := by decide

theorem test_decode_cmpiu : decode 0b0010_001_11_1000000 = .cmpiu .r1 0x0040 := by decide

theorem test_decode_jsrr : decode 0b0100_0_11_011_111111 = .jsrr .r3 := by decide

theorem test_decode_jsr : decode 0b0100_1_10000000001 = .jsr 0x401 := by decide

theorem test_decode_and : decode 0b0101_001_010_000_011 = .and .r1 .r2 .r3 := by decide

theorem test_decode_not : decode 0b0101_001_010_001_111 = .not .r1 .r2 := by decide

theorem test_decode_or : decode 0b0101_100_101_010_110 = .or .r4 .r5 .r6 := by decide

theorem test_decode_xor : decode 0b0101_111_000_011_001 = .xor .r7 .r0 .r1 := by decide

theorem test_decode_andi : decode 0b0101_001_010_1_01111 = .andi .r1 .r2 15 := by decide

theorem test_decode_ldr : decode 0b0110_001_010_100000 = .ldr .r1 .r2 0xFFE0 := by decide

theorem test_decode_str : decode 0b0111_001_010_011111 = .str .r1 .r2 31 := by decide

theorem test_decode_rti : decode 0b1000_101010111100 = .rti := by decide

theorem test_decode_const : decode 0b1001_001_100000000 = .const .r1 0xFF00 := by decide

theorem test_decode_sll : decode 0b1010_001_010_00_1111 = .sll .r1 .r2 15 := by decide

theorem test_decode_sra : decode 0b1010_001_010_01_0100 = .sra .r1 .r2 4 := by decide

theorem test_decode_srl : decode 0b1010_001_010_10_0001 = .srl .r1 .r2 1 := by decide

theorem test_decode_mod : decode 0b1010_001_010_11_1_011 = .mod .r1 .r2 .r3 := by decide

theorem test_decode_jmpr : decode 0b1100_0_11_011_111111 = .jmpr .r3 := by decide

theorem test_decode_jmp : decode 0b1100_1_10000000000 = .jmp 0xFC00 := by decide

theorem test_decode_hiconst : decode 0b1101_001_1_00010010 = .hiconst .r1 0x12 := by decide

theorem test_decode_trap : decode 0b1111_1010_00100101 = .trap 0x25 := by decide

theorem test_decode_illegal3 : decode 0b0011_000000000001 = .illegal3 1 := by decide

theorem test_decode_illegalB : decode 0b1011_111111111111 = .illegalB 0xFFF := by decide

theorem test_decode_illegalE : decode 0b1110_100000000000 = .illegalE 0x800 := by decide

/-! ## Encode: the operands in their fields, 0 in every ignored bit (30_encoding.md R104) -/

theorem test_encode_branch : encode (.brnp 0xFFFD) = 0b0000_101_111111101 := by decide

theorem test_encode_nop : encode .nop = 0b0000_000_000000000 := by decide

theorem test_encode_regForm : encode (.sub .r7 .r0 .r1) = 0b0001_111_000_010_001 := by decide

theorem test_encode_immForm : encode (.andi .r1 .r2 0xFFF0) = 0b0101_001_010_1_10000 := by decide

theorem test_encode_compare : encode (.cmpu .r3 .r5) = 0b0010_011_01_0000_101 := by decide

theorem test_encode_compareImm : encode (.cmpi .r1 0xFFC0) = 0b0010_001_10_1000000 := by decide

theorem test_encode_jsr : encode (.jsr 0x401) = 0b0100_1_10000000001 := by decide

theorem test_encode_jumpReg : encode (.jmpr .r3) = 0b1100_0_00_011_000000 := by decide

theorem test_encode_mem : encode (.str .r1 .r2 0xFFE0) = 0b0111_001_010_100000 := by decide

theorem test_encode_shift : encode (.sra .r1 .r2 4) = 0b1010_001_010_01_0100 := by decide

theorem test_encode_mod : encode (.mod .r1 .r2 .r3) = 0b1010_001_010_11_0_011 := by decide

theorem test_encode_hiconst : encode (.hiconst .r1 0x12) = 0b1101_001_0_00010010 := by decide

theorem test_encode_trap : encode (.trap 0x25) = 0b1111_0000_00100101 := by decide

theorem test_encode_illegal : encode (.illegalE 0x800) = 0b1110_100000000000 := by decide

/-- One word of the table's numbering, and one asked for with more bits than an instruction has. -/
theorem test_decodeTableWord : decodeTableWord 16 0x1283 = some (.add .r1 .r2 .r3) ∧ decodeTableWord 32 0x1283 = none := by
  decide

/-! ## Single steps: start state and result of 95_test_vectors.md section 2 -/

/-- A state between cycles, with the registers and memory listed and all else as at reset. -/
def machine (pc psr : Word) (regs : List (Reg × Word)) (mem : List (Nat × Word)) : State :=
  { State.reset with
    pc := pc
    psr := psr
    regs := regs.foldl (fun f p => f.set p.1 p.2) State.reset.regs
    mem := mem.foldl (fun m p => m.write p.1 p.2) [] }

/-- The state an answer carries, if it is a next state. -/
def nextOf (a : Answer) : Option State :=
  match a with
  | .next t => some t
  | .fault _ => none
  | .refused _ => none

/-- The cause an answer carries, if it is a fault. -/
def faultOf (a : Answer) : Option Fault :=
  match a with
  | .next _ => none
  | .fault f => some f
  | .refused _ => none

/-- PC, PSR and one register after a step. -/
def seen (s : State) (r : Reg) : Option (Word × Word × Word) := (nextOf (step s)).map (fun t => (t.pc, t.psr, readReg t r))

/-- PC, PSR and one word of memory after a step. -/
def stored (s : State) (a : Word) : Option (Word × Word × Word) :=
  (nextOf (step s)).map (fun t => (t.pc, t.psr, loadWord t a))

theorem test_step_add_1 :
    seen (machine 0x8200 0x8002 [(.r2, 0x7FFF), (.r3, 0x0001)] [(0x8200, 0x1283)]) .r1 =
      some (0x8201, 0x8004, 0x8000) := by decide

theorem test_step_add_2 :
    seen (machine 0x8200 0x8002 [(.r2, 0x8000)] [(0x8200, 0x1482)]) .r2 = some (0x8201, 0x8002, 0x0000) := by decide

theorem test_step_mul_1 :
    seen (machine 0x8200 0x8002 [(.r2, 0xFFFE), (.r3, 0x0003)] [(0x8200, 0x128B)]) .r1 =
      some (0x8201, 0x8004, 0xFFFA) := by decide

theorem test_step_mul_2 :
    seen (machine 0x8200 0x8002 [(.r2, 0x0100), (.r3, 0x0100)] [(0x8200, 0x128B)]) .r1 =
      some (0x8201, 0x8002, 0x0000) := by decide

theorem test_step_sub_1 :
    seen (machine 0x8200 0x8002 [(.r2, 0x8000), (.r3, 0x0001)] [(0x8200, 0x1293)]) .r1 =
      some (0x8201, 0x8001, 0x7FFF) := by decide

theorem test_step_sub_2 :
    seen (machine 0x8200 0x8002 [(.r2, 0x0003), (.r3, 0x0004)] [(0x8200, 0x1293)]) .r1 =
      some (0x8201, 0x8004, 0xFFFF) := by decide

theorem test_step_div_1 :
    seen (machine 0x8200 0x8002 [(.r2, 0x0007), (.r3, 0x0002)] [(0x8200, 0x129B)]) .r1 =
      some (0x8201, 0x8001, 0x0003) := by decide

theorem test_step_div_2 :
    seen (machine 0x8200 0x8002 [(.r2, 0xFFFE), (.r3, 0x0002)] [(0x8200, 0x129B)]) .r1 =
      some (0x8201, 0x8001, 0x7FFF) := by decide

theorem test_step_addi_1 :
    seen (machine 0x8200 0x8002 [(.r2, 0x0005)] [(0x8200, 0x12BF)]) .r1 = some (0x8201, 0x8001, 0x0004) := by decide

theorem test_step_addi_2 :
    seen (machine 0x8200 0x8002 [(.r2, 0x0010), (.r1, 0x5555)] [(0x8200, 0x12B0)]) .r1 =
      some (0x8201, 0x8002, 0x0000) := by decide

theorem test_step_cmp_1 :
    seen (machine 0x8200 0x8002 [(.r1, 0x8000), (.r2, 0x0001)] [(0x8200, 0x2202)]) .r1 =
      some (0x8201, 0x8004, 0x8000) := by decide

theorem test_step_cmp_2 :
    seen (machine 0x8200 0x8002 [(.r1, 0x7FFF), (.r2, 0xFFFF)] [(0x8200, 0x2202)]) .r1 =
      some (0x8201, 0x8001, 0x7FFF) := by decide

theorem test_step_cmpu_1 :
    seen (machine 0x8200 0x8002 [(.r1, 0x8000), (.r2, 0x0001)] [(0x8200, 0x2282)]) .r1 =
      some (0x8201, 0x8001, 0x8000) := by decide

theorem test_step_cmpu_2 :
    seen (machine 0x8200 0x8002 [(.r1, 0x0000), (.r2, 0xFFFF)] [(0x8200, 0x2282)]) .r1 =
      some (0x8201, 0x8004, 0x0000) := by decide

theorem test_step_cmpi_1 :
    seen (machine 0x8200 0x8001 [(.r1, 0xFFC0)] [(0x8200, 0x2340)]) .r1 = some (0x8201, 0x8002, 0xFFC0) := by decide

theorem test_step_cmpi_2 :
    seen (machine 0x8200 0x8002 [(.r1, 0x8000)] [(0x8200, 0x233F)]) .r1 = some (0x8201, 0x8004, 0x8000) := by decide

theorem test_step_cmpiu_1 :
    seen (machine 0x8200 0x8002 [(.r1, 0xFFFF)] [(0x8200, 0x23FF)]) .r1 = some (0x8201, 0x8001, 0xFFFF) := by decide

theorem test_step_cmpiu_2 :
    seen (machine 0x8200 0x8002 [(.r1, 0x0005)] [(0x8200, 0x23C0)]) .r1 = some (0x8201, 0x8004, 0x0005) := by decide

theorem test_step_and_1 :
    seen (machine 0x8200 0x8002 [(.r2, 0xF0F0), (.r3, 0xFF00)] [(0x8200, 0x5283)]) .r1 =
      some (0x8201, 0x8004, 0xF000) := by decide

theorem test_step_not_1 :
    seen (machine 0x8200 0x8002 [(.r2, 0x00FF), (.r7, 0x1111)] [(0x8200, 0x528F)]) .r1 =
      some (0x8201, 0x8004, 0xFF00) := by decide

theorem test_step_not_2 :
    seen (machine 0x8200 0x8002 [(.r2, 0x0000)] [(0x8200, 0x5288)]) .r1 = some (0x8201, 0x8004, 0xFFFF) := by decide

theorem test_step_or_1 :
    seen (machine 0x8200 0x8002 [(.r2, 0x00F0), (.r3, 0x0F00)] [(0x8200, 0x5293)]) .r1 =
      some (0x8201, 0x8001, 0x0FF0) := by decide

theorem test_step_xor_1 :
    seen (machine 0x8200 0x8002 [(.r2, 0xFFFF), (.r3, 0x00FF)] [(0x8200, 0x529B)]) .r1 =
      some (0x8201, 0x8004, 0xFF00) := by decide

theorem test_step_andi_1 :
    seen (machine 0x8200 0x8002 [(.r2, 0xBEEF)] [(0x8200, 0x52AF)]) .r1 = some (0x8201, 0x8001, 0x000F) := by decide

theorem test_step_andi_2 :
    seen (machine 0x8200 0x8002 [(.r2, 0xBEEF)] [(0x8200, 0x52B0)]) .r1 = some (0x8201, 0x8004, 0xBEE0) := by decide

theorem test_step_nop_1 :
    seen (machine 0x8200 0x8004 [] [(0x8200, 0x0005)]) .r0 = some (0x8201, 0x8004, 0x0000) := by decide

theorem test_step_brp_1 :
    seen (machine 0x8200 0x8002 [] [(0x8200, 0x0205)]) .r0 = some (0x8201, 0x8002, 0x0000) := by decide

theorem test_step_brp_2 :
    seen (machine 0x8200 0x8001 [] [(0x8200, 0x0205)]) .r0 = some (0x8206, 0x8001, 0x0000) := by decide

theorem test_step_brz_1 :
    seen (machine 0x8200 0x8004 [] [(0x8200, 0x0405)]) .r0 = some (0x8201, 0x8004, 0x0000) := by decide

theorem test_step_brz_2 :
    seen (machine 0x8200 0x8002 [] [(0x8200, 0x0405)]) .r0 = some (0x8206, 0x8002, 0x0000) := by decide

theorem test_step_brzp_1 :
    seen (machine 0x8200 0x8004 [] [(0x8200, 0x0605)]) .r0 = some (0x8201, 0x8004, 0x0000) := by decide

theorem test_step_brzp_2 :
    seen (machine 0x8200 0x8001 [] [(0x8200, 0x0605)]) .r0 = some (0x8206, 0x8001, 0x0000) := by decide

theorem test_step_brn_1 :
    seen (machine 0x8200 0x8004 [] [(0x8200, 0x0805)]) .r0 = some (0x8206, 0x8004, 0x0000) := by decide

theorem test_step_brn_2 :
    seen (machine 0x8200 0x8001 [] [(0x8200, 0x0805)]) .r0 = some (0x8201, 0x8001, 0x0000) := by decide

theorem test_step_brnp_1 :
    seen (machine 0x8200 0x8004 [] [(0x8200, 0x0A05)]) .r0 = some (0x8206, 0x8004, 0x0000) := by decide

theorem test_step_brnp_2 :
    seen (machine 0x8200 0x8002 [] [(0x8200, 0x0A05)]) .r0 = some (0x8201, 0x8002, 0x0000) := by decide

theorem test_step_brnz_1 :
    seen (machine 0x8200 0x8004 [] [(0x8200, 0x0C05)]) .r0 = some (0x8206, 0x8004, 0x0000) := by decide

theorem test_step_brnz_2 :
    seen (machine 0x8200 0x8001 [] [(0x8200, 0x0C05)]) .r0 = some (0x8201, 0x8001, 0x0000) := by decide

theorem test_step_brnzp_1 :
    seen (machine 0x8200 0x8002 [] [(0x8200, 0x0E05)]) .r0 = some (0x8206, 0x8002, 0x0000) := by decide

theorem test_step_brnzp_2 :
    seen (machine 0x8200 0x8002 [] [(0x8200, 0x0F00)]) .r0 = some (0x8101, 0x8002, 0x0000) := by decide

theorem test_step_jmpr_1 :
    seen (machine 0x8200 0x8002 [(.r3, 0x8400)] [(0x8200, 0xC6FF)]) .r3 = some (0x8400, 0x8002, 0x8400) := by decide

theorem test_step_jmp_1 :
    seen (machine 0xFFFF 0x8002 [] [(0xFFFF, 0xC800)]) .r0 = some (0x0000, 0x8002, 0x0000) := by decide

theorem test_step_jsrr_1 :
    seen (machine 0x8200 0x8002 [(.r3, 0x8400)] [(0x8200, 0x40C0)]) .r7 = some (0x8400, 0x8002, 0x8201) := by decide

theorem test_step_jsrr_2 :
    seen (machine 0x8200 0x8002 [(.r7, 0x8400)] [(0x8200, 0x41C0)]) .r7 = some (0x8201, 0x8002, 0x8201) := by decide

theorem test_step_jsr_1 :
    seen (machine 0x8200 0x8002 [] [(0x8200, 0x4FFF)]) .r7 = some (0xFFF0, 0x8002, 0x8201) := by decide

theorem test_step_jsr_2 :
    seen (machine 0x0123 0x0001 [] [(0x0123, 0x4801)]) .r7 = some (0x0010, 0x0001, 0x0124) := by decide

theorem test_step_sll_1 :
    seen (machine 0x8200 0x8002 [(.r2, 0x0FFF)] [(0x8200, 0xA284)]) .r1 = some (0x8201, 0x8004, 0xFFF0) := by decide

theorem test_step_sll_2 :
    seen (machine 0x8200 0x8002 [(.r2, 0x0002), (.r1, 0x5555)] [(0x8200, 0xA28F)]) .r1 =
      some (0x8201, 0x8002, 0x0000) := by decide

theorem test_step_sra_1 :
    seen (machine 0x8200 0x8002 [(.r2, 0x8000)] [(0x8200, 0xA294)]) .r1 = some (0x8201, 0x8004, 0xF800) := by decide

theorem test_step_sra_2 :
    seen (machine 0x8200 0x8002 [(.r2, 0x7FFF), (.r1, 0x5555)] [(0x8200, 0xA29F)]) .r1 =
      some (0x8201, 0x8002, 0x0000) := by decide

theorem test_step_srl_1 :
    seen (machine 0x8200 0x8002 [(.r2, 0x8000)] [(0x8200, 0xA2A4)]) .r1 = some (0x8201, 0x8001, 0x0800) := by decide

theorem test_step_srl_2 :
    seen (machine 0x8200 0x8002 [(.r2, 0xFFFF)] [(0x8200, 0xA2A1)]) .r1 = some (0x8201, 0x8001, 0x7FFF) := by decide

theorem test_step_mod_1 :
    seen (machine 0x8200 0x8002 [(.r2, 0x0007), (.r3, 0x0003)] [(0x8200, 0xA2BB)]) .r1 =
      some (0x8201, 0x8001, 0x0001) := by decide

theorem test_step_mod_2 :
    seen (machine 0x8200 0x8002 [(.r2, 0xFFFF), (.r3, 0x0010)] [(0x8200, 0xA2B3)]) .r1 =
      some (0x8201, 0x8001, 0x000F) := by decide

theorem test_step_ldr_1 :
    seen (machine 0x8200 0x8002 [(.r2, 0xA020)] [(0x8200, 0x62A0), (0xA000, 0x0001)]) .r1 =
      some (0x8201, 0x8001, 0x0001) := by decide

theorem test_step_ldr_2 :
    faultOf (step (machine 0x8200 0x8002 [(.r2, 0x8000), (.r1, 0x5555)] [(0x8200, 0x62BF)])) =
      some (.dataPermission 0x7FFF) := by decide

theorem test_step_str_1 :
    stored (machine 0x8200 0x8002 [(.r1, 0xCAFE), (.r2, 0xA000)] [(0x8200, 0x7283)]) 0xA003 =
      some (0x8201, 0x8002, 0xCAFE) := by decide

theorem test_step_str_2 :
    faultOf (step (machine 0x0000 0x0002 [(.r1, 0xCAFE), (.r2, 0x9000)] [(0x0000, 0x7280)])) =
      some (.dataPermission 0x9000) := by decide

theorem test_step_const_1 :
    seen (machine 0x8200 0x8002 [] [(0x8200, 0x92FF)]) .r1 = some (0x8201, 0x8001, 0x00FF) := by decide

theorem test_step_const_2 :
    seen (machine 0x8200 0x8002 [] [(0x8200, 0x9300)]) .r1 = some (0x8201, 0x8004, 0xFF00) := by decide

theorem test_step_hiconst_1 :
    seen (machine 0x8200 0x8002 [(.r1, 0x0034)] [(0x8200, 0xD312)]) .r1 = some (0x8201, 0x8001, 0x1234) := by decide

theorem test_step_hiconst_2 :
    seen (machine 0x8200 0x8002 [(.r1, 0xFFFF)] [(0x8200, 0xD280)]) .r1 = some (0x8201, 0x8004, 0x80FF) := by decide

theorem test_step_trap_1 :
    seen (machine 0x0000 0x0002 [] [(0x0000, 0xF010)]) .r7 = some (0x8010, 0x8001, 0x0001) := by decide

theorem test_step_trap_2 :
    seen (machine 0x0123 0x0001 [] [(0x0123, 0xF0FF)]) .r7 = some (0x80FF, 0x8001, 0x0124) := by decide

theorem test_step_rti_1 :
    seen (machine 0x8010 0x8001 [(.r7, 0x0001)] [(0x8010, 0x8000)]) .r7 = some (0x0001, 0x0001, 0x0001) := by decide

theorem test_step_rti_2 :
    seen (machine 0x0010 0x0001 [(.r7, 0x0001)] [(0x0010, 0x8000)]) .r7 = some (0x0001, 0x0001, 0x0001) := by decide

theorem test_step_illegal_3_1 :
    faultOf (step (machine 0x8200 0x8002 [] [(0x8200, 0x3000)])) = some (.illegalOpcode 0x3000) := by decide

theorem test_step_illegal_3_2 :
    faultOf (step (machine 0x0000 0x8002 [] [(0x0000, 0x3000)])) = some (.fetchPermission 0x0000) := by decide

theorem test_step_illegal_b_1 :
    faultOf (step (machine 0x8200 0x8002 [] [(0x8200, 0xBFFF)])) = some (.illegalOpcode 0xBFFF) := by decide

theorem test_step_illegal_e_1 :
    faultOf (step (machine 0x8200 0x8002 [(.r1, 0x5555)] [(0x8200, 0xE123)])) = some (.illegalOpcode 0xE123) := by decide

/-! ## The loader and placing a word for the next fetch -/

theorem test_withFetchWord :
    seen (State.reset.withFetchWord 16 0x92FF) .r1 = some (0x8201, 0x8001, 0x00FF) := by decide

/-- The document's own example (20_memory.md R52). -/
theorem test_loadSegments_example :
    loadSegments [⟨0x8200, [0x1234, 0x5678]⟩] [] = some [(0x8200, 0x1234), (0x8201, 0x5678)] := by decide

/-- 70_reset_and_hazards.md R285: a later segment overwrites an earlier one. -/
theorem test_loadSegments :
    loadSegments [⟨0x8200, [1, 2]⟩, ⟨0x8201, [3]⟩] [] = some [(0x8200, 1), (0x8201, 3)] := by decide

/-- 20_memory.md R52: a segment may not pass the end of the address space. -/
theorem test_loadWords_past_end : loadWords 0xFFFF [1, 2] [] = none := by decide

/-! ## Witnesses: concrete states and operands that meet the hypotheses of the statements, each clause at a boundary -/

/-- Supervisor, about to run `STR R1,R2,0` with the address in R2. -/
def storing (ea : Word) : State := machine 0x8200 0x8002 [(.r1, 0xCAFE), (.r2, ea)] [(0x8200, 0x7280)]

/-- User mode, about to run `LDR R1,R2,0` with the address in R2. -/
def loading (ea : Word) : State := machine 0x0000 0x0002 [(.r2, ea)] [(0x0000, 0x6280)]

/-- Supervisor, with one word where the next fetch reads. -/
def holding (w : Word) : State := machine 0x8200 0x8002 [] [(0x8200, w)]

/-- A TRAP 0x10 of user mode with an RTI at its entry point. -/
def trapping : State := machine 0x0000 0x0002 [] [(0x0000, 0xF010), (0x8010, 0x8000)]

theorem completes {a : Answer} (h : (nextOf a).isSome = true) : ∃ t, a = .next t := by
  cases a <;> simp_all [nextOf]

theorem fails {a : Answer} (h : (faultOf a).isSome = true) : ∃ f, a = .fault f := by
  cases a <;> simp_all [faultOf]

theorem witness_DecodeEncodeRoundTrip :
    WellFormed (.ldr .r1 .r2 0xFFE0) = true ∧ WellFormed (.addi .r1 .r2 0x000F) = true := by decide

theorem witness_WordMatchesExactlyItsRow :
    (0x1283 : Word) &&& rowMask (.add .r1 .r2 .r3) = rowMatch (.add .r1 .r2 .r3) := by decide

theorem witness_StepKeepsInvariant : (storing 0xFFFF).Inv ∧ ∃ t, step (storing 0xFFFF) = .next t :=
  ⟨⟨by decide, by decide, rfl, by decide⟩, _, rfl⟩

theorem witness_CanonicalMemoriesReadingAlikeAreEqual :
    Memory.wf (Memory.write (Memory.write [] 5 7) 3 9) ∧ Memory.wf (Memory.write (Memory.write [] 3 9) 5 7) ∧
    ∀ a : Nat, Memory.read (Memory.write (Memory.write [] 5 7) 3 9) a =
      Memory.read (Memory.write (Memory.write [] 3 9) 5 7) a :=
  ⟨by decide, by decide, fun _ => rfl⟩

theorem witness_StepRunsDecodedInstruction_next :
    MayRun (storing 0xFFFF) ∧ FetchAllowed (storing 0xFFFF) ∧
    decode (loadWord (storing 0xFFFF) (storing 0xFFFF).pc) = .str .r1 .r2 0 ∧
    ∃ u, exec (.str .r1 .r2 0) (storing 0xFFFF) = .next u :=
  ⟨by decide, by decide, by decide, _, rfl⟩

theorem witness_StepRunsDecodedInstruction_fault :
    MayRun (storing 0x7FFF) ∧ FetchAllowed (storing 0x7FFF) ∧
    decode (loadWord (storing 0x7FFF) (storing 0x7FFF).pc) = .str .r1 .r2 0 ∧
    ∃ f, exec (.str .r1 .r2 0) (storing 0x7FFF) = .fault f :=
  ⟨by decide, by decide, by decide, _, rfl⟩

theorem witness_HaltedMachineIsFrozen : (machine 0x80FF 0x0002 [] []).pc = 0x80FF := by decide

theorem witness_FetchCheckEndsTheCycle :
    (MayRun (machine 0x8000 0x0002 [] []) ∧
      denied (currentMode (machine 0x8000 0x0002 [] [])) (machine 0x8000 0x0002 [] []).pc = true) ∧
    (MayRun (machine 0x7FFF 0x8002 [] []) ∧
      denied (currentMode (machine 0x7FFF 0x8002 [] [])) (machine 0x7FFF 0x8002 [] []).pc = true) := by
  decide

theorem witness_FatalConditionsInOrder :
    (machine 0x80FF 0x0002 [] []).pc = 0x80FF ∧
    faultOf (step (machine 0xFFFE 0x0002 [] [(0xFFFE, 0x3000)])) = some (.fetchPermission 0xFFFE) ∧
    faultOf (step (machine 0xFFFF 0x0002 [] [(0xFFFF, 0x3000)])) = some (.illegalOpcode 0x3000) ∧
    faultOf (step (storing 0x7FFF)) = some (.dataPermission 0x7FFF) ∧
    faultOf (step (loading 0x8000)) = some (.dataPermission 0x8000) := by
  decide

theorem witness_UnrecognizedWordsAreThreeOpcodes_in :
    (MayRun (holding 0x3000) ∧ FetchAllowed (holding 0x3000) ∧ (fetch (holding 0x3000)).toNat / 4096 ∈ [0x3, 0xB, 0xE]) ∧
    (MayRun (holding 0x3FFF) ∧ FetchAllowed (holding 0x3FFF) ∧ (fetch (holding 0x3FFF)).toNat / 4096 ∈ [0x3, 0xB, 0xE]) ∧
    (MayRun (holding 0xB000) ∧ FetchAllowed (holding 0xB000) ∧ (fetch (holding 0xB000)).toNat / 4096 ∈ [0x3, 0xB, 0xE]) ∧
    (MayRun (holding 0xEFFF) ∧ FetchAllowed (holding 0xEFFF) ∧ (fetch (holding 0xEFFF)).toNat / 4096 ∈ [0x3, 0xB, 0xE]) :=
  ⟨by decide, by decide, by decide, by decide⟩

theorem witness_UnrecognizedWordsAreThreeOpcodes_out :
    (MayRun (holding 0x2FFF) ∧ FetchAllowed (holding 0x2FFF) ∧ (fetch (holding 0x2FFF)).toNat / 4096 ∉ [0x3, 0xB, 0xE]) ∧
    (MayRun (holding 0x4000) ∧ FetchAllowed (holding 0x4000) ∧ (fetch (holding 0x4000)).toNat / 4096 ∉ [0x3, 0xB, 0xE]) ∧
    (MayRun (holding 0xF000) ∧ FetchAllowed (holding 0xF000) ∧ (fetch (holding 0xF000)).toNat / 4096 ∉ [0x3, 0xB, 0xE]) :=
  ⟨by decide, by decide, by decide⟩

theorem witness_FailedCycleChangesNothing : ∃ f, step (loading 0x8000) = .fault f := ⟨_, rfl⟩

theorem witness_LoadStorePermissionTests :
    (∃ r, (Instr.ldr .r1 .r2 0) = .ldr r .r2 0 ∨ (Instr.ldr .r1 .r2 0) = .str r .r2 0) ∧
    (effectiveAddress .r2 0 (loading 0x9000) = 0x9000 ∧ currentMode (loading 0x9000) = .user ∧
      effectiveAddress .r2 0 (storing 0x9000) = 0x9000 ∧ currentMode (storing 0x9000) = .supervisor) ∧
    (effectiveAddress .r2 0 (loading 0x0000) = 0x0000 ∧ currentMode (loading 0x0000) = .user ∧
      effectiveAddress .r2 0 (storing 0x0000) = 0x0000 ∧ currentMode (storing 0x0000) = .supervisor) ∧
    (effectiveAddress .r2 0 (loading 0xFFFF) = 0xFFFF ∧ currentMode (loading 0xFFFF) = .user ∧
      effectiveAddress .r2 0 (storing 0xFFFF) = 0xFFFF ∧ currentMode (storing 0xFFFF) = .supervisor) :=
  ⟨⟨.r1, Or.inl rfl⟩, by decide, by decide, by decide⟩

theorem witness_OnlyTrapAndRtiChangeMode :
    (∃ t, exec (.trap 0x10) trapping = .next t) ∧ (∃ f, step (loading 0x8000) = .fault f) ∧
    ∀ r rs imm, (Instr.nop ≠ .ldr r rs imm ∧ Instr.nop ≠ .str r rs imm) :=
  ⟨⟨_, rfl⟩, ⟨_, rfl⟩, fun _ _ _ => ⟨nofun, nofun⟩⟩

theorem witness_DeniedMemoryIsNeverWritten :
    (∃ t, step (storing 0x8000) = .next t) ∧ denied (currentMode (storing 0x8000)) 0x7FFF = true ∧
    (∃ t, step (loading 0x7FFF) = .next t) ∧ denied (currentMode (loading 0x7FFF)) 0x8000 = true ∧
    denied (currentMode (loading 0x7FFF)) 0xFFFE = true :=
  ⟨⟨_, rfl⟩, by decide, ⟨_, rfl⟩, by decide, by decide⟩

/-- A memory that differs from the state's at 0x7FFF alone, in supervisor mode, where 0x7FFF is denied. -/
theorem agrees_where_permitted (s : State) (hs : currentMode s = .supervisor) (v a : Word)
    (h : denied (currentMode s) a = false) : Memory.read (s.mem.write 0x7FFF v) a.toNat = loadWord s a := by
  refine Memory.read_write_other _ _ _ _ (fun e => ?_)
  rw [hs, ← Bool.not_eq_true, denied_supervisor] at h
  omega

theorem witness_DeniedMemoryIsNeverRead_next :
    (∀ a : Word, denied (currentMode (storing 0x8000)) a = false →
      Memory.read ((storing 0x8000).mem.write 0x7FFF 1) a.toNat = loadWord (storing 0x8000) a) ∧
    loadWord (storing 0x8000) 0x7FFF ≠ Memory.read ((storing 0x8000).mem.write 0x7FFF 1) 0x7FFF ∧
    ∃ t, step (storing 0x8000) = .next t :=
  ⟨agrees_where_permitted _ (by decide) 1, by decide, completes (by decide)⟩

theorem witness_DeniedMemoryIsNeverRead_fault :
    (∀ a : Word, denied (currentMode (storing 0x7FFF)) a = false →
      Memory.read ((storing 0x7FFF).mem.write 0x7FFF 1) a.toNat = loadWord (storing 0x7FFF) a) ∧
    ∃ f, step (storing 0x7FFF) = .fault f :=
  ⟨agrees_where_permitted _ (by decide) 1, fails (by decide)⟩

theorem witness_HandlerFrame :
    (∃ t, exec (.str .r1 .r2 0) (storing 0xFFFF) = .next t) ∧ writtenReg (.str .r1 .r2 0) ≠ some .r1 ∧
    storedAddress (.str .r1 .r2 0) (storing 0xFFFF) ≠ some 0x0000 ∧
    flagSource (.str .r1 .r2 0) (storing 0xFFFF) (storing 0xFFFF) = none :=
  ⟨⟨_, rfl⟩, by decide, by decide, by decide⟩

theorem witness_PcAfterEachInstruction :
    (∃ t, exec (.jsrr .r7) trapping = .next t) ∧ (∃ f, step (loading 0x8000) = .fault f) :=
  ⟨⟨_, rfl⟩, ⟨_, rfl⟩⟩

theorem witness_FlagsAfterEachInstruction :
    (∃ t, exec (.cmp .r1 .r2) (storing 0x8000) = .next t) ∧
    flagSource (.cmp .r1 .r2) (storing 0x8000) (storing 0x8000) = some (0xCAFE - 0x8000) ∧
    (∃ t, exec .rti trapping = .next t) ∧ flagSource .rti trapping trapping = none :=
  ⟨⟨_, rfl⟩, by decide, ⟨_, rfl⟩, by decide⟩

theorem witness_UnreadRegistersDoNotMatter :
    Reg.r1 ∉ readRegs (.ldr .r1 .r2 0) ∧ writtenReg (.ldr .r1 .r2 0) = some .r1 ∧
    Reg.r7 ∉ readRegs (.ldr .r1 .r2 0) ∧ (∃ t, exec (.ldr .r1 .r2 0) (loading 0x7FFF) = .next t) ∧
    (∃ f, exec (.ldr .r1 .r2 0) (loading 0x8000) = .fault f) :=
  ⟨by decide, by decide, by decide, ⟨_, rfl⟩, ⟨_, rfl⟩⟩

theorem witness_ControlSignalsOfEachInstruction :
    (storing 0xFFFF).sig = Signals.zero ∧ ∃ t, exec (.str .r1 .r2 0) (storing 0xFFFF) = .next t :=
  ⟨rfl, _, rfl⟩

theorem witness_QuotientAndRemainderAgree :
    (0x7FFF : Word).toNat ≠ 0 ∧ (0x7FFF : Word).toNat < 0x8000 ∧ (0x0001 : Word).toNat ≠ 0 := by decide

theorem witness_ConstThenHiconstBuildsAnyWord :
    (0x1FF : BitVec 9).setWidth 8 = (0xA0FF : Word).setWidth 8 ∧
    (0x0FF : BitVec 9).setWidth 8 = (0xA0FF : Word).setWidth 8 := by decide

/-- Each mode at the boundaries of what it may reach; the first address wraps. -/
theorem witness_LoadResults :
    ((0x0000 : Word).toNat = ((readReg (loading 0x0001) .r2).toNat + (0xFFFF : Word).toNat) % 65536) ∧
    denied (currentMode (loading 0x0000)) 0x0000 = false ∧
    denied (currentMode (loading 0x7FFF)) 0x7FFF = false ∧
    denied (currentMode (loading 0xFFFF)) 0xFFFF = false ∧
    denied (currentMode (loading 0x8000)) 0x8000 = true ∧
    denied (currentMode (loading 0xFFFE)) 0xFFFE = true :=
  ⟨by decide, by decide, by decide, by decide, by decide, by decide⟩

theorem witness_StoreResults :
    ((0x8000 : Word).toNat = ((readReg (storing 0x8000) .r2).toNat + (0 : Word).toNat) % 65536) ∧
    denied (currentMode (storing 0x8000)) 0x8000 = false ∧
    denied (currentMode (storing 0xFFFF)) 0xFFFF = false ∧
    denied (currentMode (storing 0x7FFF)) 0x7FFF = true ∧
    denied (currentMode (storing 0x0000)) 0x0000 = true :=
  ⟨by decide, by decide, by decide, by decide, by decide⟩

theorem witness_MemoryPrimitives : (0xFFFF : Word) ≠ 0x0000 := by decide

theorem witness_TrapThenRtiReturnsToUser :
    MayRun trapping ∧ FetchAllowed trapping ∧ decode (fetch trapping) = .trap 0x10 ∧ (0x10 : BitVec 8) ≠ 0xFF ∧
    decode (loadWord trapping (0x8000 ||| (0x10 : BitVec 8).setWidth 16)) = .rti := by
  decide

/-- The word stored is 0xCAFE, a JMP, whose cycle is run next. -/
theorem witness_StoredWordIsExecutedNext_next :
    MayRun (storing 0x8201) ∧ FetchAllowed (storing 0x8201) ∧ decode (fetch (storing 0x8201)) = .str .r1 .r2 0 ∧
    effectiveAddress .r2 0 (storing 0x8201) = (storing 0x8201).pc + 1 ∧
    denied (currentMode (storing 0x8201)) ((storing 0x8201).pc + 1) = false ∧
    (storing 0x8201).pc + 1 ≠ 0x80FF ∧ ∃ u, exec (decode (readReg (storing 0x8201) .r1)) (storing 0x8201) = .next u :=
  ⟨by decide, by decide, by decide, by decide, by decide, by decide, completes (by decide)⟩

/-- The word stored is 0xB000, whose cycle is fatal. -/
theorem witness_StoredWordIsExecutedNext_fault :
    let s := machine 0x80FD 0x8002 [(.r1, 0xB000), (.r2, 0x80FE)] [(0x80FD, 0x7280)]
    MayRun s ∧ FetchAllowed s ∧ decode (fetch s) = .str .r1 .r2 0 ∧ effectiveAddress .r2 0 s = s.pc + 1 ∧
    denied (currentMode s) (s.pc + 1) = false ∧ s.pc + 1 ≠ 0x80FF ∧ ∃ f, exec (decode (readReg s .r1)) s = .fault f :=
  ⟨by decide, by decide, by decide, by decide, by decide, by decide, fails (by decide)⟩

/-- The store just below the halt sentinel: the word is what a fetch would read, and no cycle is run. -/
theorem witness_StoredWordIsExecutedNext_at_sentinel :
    let s := machine 0x80FE 0x8002 [(.r1, 0xCAFE), (.r2, 0x80FF)] [(0x80FE, 0x7280)]
    MayRun s ∧ FetchAllowed s ∧ decode (fetch s) = .str .r1 .r2 0 ∧ effectiveAddress .r2 0 s = s.pc + 1 ∧
    denied (currentMode s) (s.pc + 1) = false ∧ s.pc + 1 = 0x80FF :=
  ⟨by decide, by decide, by decide, by decide, by decide, by decide⟩

theorem witness_TraceRecordOfEachCycle :
    MayRun (storing 0xFFFF) ∧ (storing 0xFFFF).sig = Signals.zero ∧ ∃ t, step (storing 0xFFFF) = .next t :=
  ⟨by decide, rfl, _, rfl⟩

/-- One cycle that succeeds and one that fails; neither begins at the halt sentinel. -/
theorem witness_TraceCountsCycles :
    (∀ k u, k < 1 → Host.Core.run core k trapping = .next u → u.pc ≠ 0x80FF) ∧
    (∃ t, Host.Core.run core 1 trapping = .next t) ∧
    (∀ k u, k < 1 → Host.Core.run core k (loading 0x8000) = .next u → u.pc ≠ 0x80FF) ∧
    (∃ f, Host.Core.run core 1 (loading 0x8000) = .fault f) := by
  refine ⟨fun k u hk h => ?_, ⟨_, rfl⟩, fun k u hk h => ?_, ⟨_, rfl⟩⟩
  · obtain rfl : k = 0 := by omega
    cases h
    decide
  · obtain rfl : k = 0 := by omega
    cases h
    decide

theorem witness_LoaderPlacesConsecutiveWords :
    ([1] : List Word) ≠ [] ∧ loadWords 0xFFFF [1] [] = some [(0xFFFF, 1)] ∧ (0 < [1].length) ∧ (0xFFFE : Nat) < 0xFFFF := by
  decide

/-- Two segments that overlap at 0x8201, and an address that neither covers. -/
def overlapping : List Segment := [⟨0x8200, [0x92FF, 0x0001]⟩, ⟨0x8201, [0x9605]⟩]

theorem witness_LoadedStartStateIsResetButForMemory :
    (∃ s, startState overlapping = some s) ∧ ∀ g ∈ overlapping, ¬ Covers g (0x8202 : Word).toNat :=
  ⟨⟨_, rfl⟩, by simp [overlapping, Covers]⟩

/-- A word of the last segment, a word of the first that the last does not cover, an address outside both. -/
theorem witness_LaterSegmentsOverwriteEarlier :
    (∃ m, loadSegments overlapping [] = some m) ∧
    overlapping = [⟨0x8200, [0x92FF, 0x0001]⟩] ++ ⟨0x8201, [0x9605]⟩ :: [] ∧
    overlapping = [] ++ ⟨0x8200, [0x92FF, 0x0001]⟩ :: [⟨0x8201, [0x9605]⟩] ∧
    (∀ h ∈ [(⟨0x8201, [0x9605]⟩ : Segment)], ¬ Covers h (0x8200 + 0)) ∧
    ∀ g ∈ overlapping, ¬ Covers g 0x8202 :=
  ⟨⟨_, rfl⟩, rfl, rfl, by simp [Covers], by simp [overlapping, Covers]⟩

/-- `JMP -258` at 0x8200 reaches the sentinel, `JMP -1` does not, and 0xB000 is fatal. -/
theorem witness_OutcomeOfEachCycle :
    (MayRun (holding 0xCEFE) ∧ (nextOf (step (holding 0xCEFE))).map State.pc = some 0x80FF) ∧
    (MayRun (holding 0xCFFF) ∧ (nextOf (step (holding 0xCFFF))).map State.pc = some 0x8200) ∧
    faultOf (step (holding 0xB000)) = some (.illegalOpcode 0xB000) := by
  decide

/-- The first and the last word of NOP, in a state between cycles. -/
theorem witness_NopWordOnlyAdvancesPc :
    (MayRun (holding 0x0000) ∧ FetchAllowed (holding 0x0000) ∧ (fetch (holding 0x0000)).toNat < 0x0200) ∧
    (MayRun (holding 0x01FF) ∧ FetchAllowed (holding 0x01FF) ∧ (fetch (holding 0x01FF)).toNat < 0x0200) ∧
    (holding 0x01FF).sig = Signals.zero := by
  decide

/-! ## Another configuration (00_scope.md R5): every opcode one higher, the other values of D5, D7, D8, D11 and D12 -/

/-- Unassigned opcodes 0x4, 0xC and 0xF; shifts in the order of the document's list (D5); P, Z, N from bit 2 down (D7); signed
quotient and remainder (D8); JSR's field signed (D11); JSRR's register read first (D12). -/
def other : Parameters :=
  { Config.standard with
    opcodeOf := fun k => Config.opcodeOf k + 1
    shiftSubop := fun | .sll => 0 | .srl => 1 | .sra => 2 | .mod => 3
    codeN := 0b001
    codeP := 0b100
    divFn := BitVec.sdiv
    modFn := BitVec.srem
    jsrImmSigned := true
    jsrrLinkFirst := false }

theorem other_proper : other.Proper where
  opcodes := fun a b h => by revert h; cases a <;> cases b <;> decide
  branchSubops := Config.standard_proper.branchSubops
  arithSubops := Config.standard_proper.arithSubops
  logicSubops := Config.standard_proper.logicSubops
  cmpSubops := Config.standard_proper.cmpSubops
  shiftSubops := fun a b h => by revert h; cases a <;> cases b <;> decide
  codes := by decide

theorem test_decodeUnder :
    decodeUnder other 0b0010_001_010_000_011 = .add .r1 .r2 .r3 ∧ decodeUnder other 0b1011_001_010_01_0001 = .srl .r1 .r2 1 ∧
    decodeUnder other 0b0000_0000_00100101 = .trap 0x25 ∧ decodeUnder other 0x4FFF = .illegal3 0xFFF ∧
    decodeUnder other 0xC000 = .illegalB 0 ∧ decodeUnder other 0xF001 = .illegalE 1 := by
  decide

theorem test_encodeUnder :
    encodeUnder other (.srl .r1 .r2 1) = 0b1011_001_010_01_0001 ∧ encodeUnder other (.illegalE 1) = 0xF001 := by
  decide

/-- SUB sets N, which is PSR bit 0 here (D7). -/
theorem test_stepUnder_sub :
    (nextOf (stepUnder other (machine 0x8200 0x8002 [(.r3, 1)] [(0x8200, 0x2293)]))).map (fun t => (t.psr, readReg t .r1)) =
      some (0x8001, 0xFFFF) := by decide

/-- -7 by 2 is -3, with -1 left (D8). -/
theorem test_stepUnder_div_mod :
    (nextOf (stepUnder other (machine 0x8200 0x8002 [(.r2, 0xFFF9), (.r3, 2)] [(0x8200, 0x229B)]))).map (readReg · .r1) =
      some 0xFFFD ∧
    (nextOf (stepUnder other (machine 0x8200 0x8002 [(.r2, 0xFFF9), (.r3, 2)] [(0x8200, 0xB2B3)]))).map (readReg · .r1) =
      some 0xFFFF := by decide

/-- JSR of the lower half with the field's top bit set goes to the upper half (D11); JSRR R7 goes to the old R7 (D12). -/
theorem test_stepUnder_jsr_jsrr :
    (nextOf (stepUnder other (machine 0x0000 0x0002 [] [(0x0000, 0x5C00)]))).map State.pc = some 0xC000 ∧
    (nextOf (stepUnder other (machine 0x8200 0x8002 [(.r7, 0x8400)] [(0x8200, 0x51C0)]))).map State.pc = some 0x8400 := by
  decide

theorem test_stepUnder_unassigned :
    faultOf (stepUnder other (holding 0xF001)) = some (.illegalOpcode 0xF001) ∧
    (nextOf (stepUnder other (holding 0x3000))).isSome = true := by
  decide

/-- The first and the last word of an unassigned opcode, and the words on either side. -/
theorem witness_UnrecognizedWordsAreThreeOpcodes_other :
    other.Proper ∧
    (MayRun (holding 0xC000) ∧ FetchAllowed (holding 0xC000) ∧ ∀ k, other.opcodeOf k ≠ field 12 4 (fetch (holding 0xC000))) ∧
    (MayRun (holding 0xCFFF) ∧ FetchAllowed (holding 0xCFFF) ∧ ∀ k, other.opcodeOf k ≠ field 12 4 (fetch (holding 0xCFFF))) ∧
    (MayRun (holding 0xBFFF) ∧ FetchAllowed (holding 0xBFFF) ∧ ∃ k, other.opcodeOf k = field 12 4 (fetch (holding 0xBFFF))) ∧
    (MayRun (holding 0xD000) ∧ FetchAllowed (holding 0xD000) ∧ ∃ k, other.opcodeOf k = field 12 4 (fetch (holding 0xD000))) :=
  ⟨other_proper, ⟨by decide, by decide, fun k => by cases k <;> decide⟩, ⟨by decide, by decide, fun k => by cases k <;> decide⟩,
    ⟨by decide, by decide, .shiftMod, by decide⟩, ⟨by decide, by decide, .jump, by decide⟩⟩

theorem witness_RoundTripUnderEveryConfiguration :
    Config.standard.Proper ∧ other.Proper ∧ WellFormed (.ldr .r1 .r2 0xFFE0) = true ∧ WellFormed (.illegalE 0) = true :=
  ⟨Config.standard_proper, other_proper, by decide, by decide⟩

theorem witness_StepKeepsInvariantUnderEveryConfiguration :
    other.Proper ∧ (storing 0xFFFF).Inv ∧ ∃ t, stepUnder other (storing 0xFFFF) = .next t :=
  ⟨other_proper, ⟨by decide, by decide, rfl, by decide⟩, completes (by decide)⟩

/-- A value of each sign. -/
theorem witness_BranchesFollowTheSignUnderEveryNzpOrder :
    other.Proper ∧ (0x8000 : Word).toInt < 0 ∧ (0x0000 : Word).toInt = 0 ∧ 0 < (0x0001 : Word).toInt :=
  ⟨other_proper, by decide, by decide, by decide⟩

end Sys2Proof.Tests
end

/-! ## The reset state (10_state.md R38) -/

namespace Sys2Proof.Machine

/-- An address that no cell lists reads as the reset contents. -/
@[simp] theorem Memory.read_nil (a : Nat) : Memory.read [] a = Config.memoryReset := rfl

/-! ### One lemma for each element of the table -/

@[simp] theorem State.reset_pc : State.reset.pc = 0x8200 := rfl
@[simp] theorem State.reset_psr : State.reset.psr = 0x8002 := rfl
@[simp] theorem State.reset_mem : State.reset.mem = [] := rfl
@[simp] theorem State.reset_sig : State.reset.sig = Signals.zero := rfl

@[simp] theorem State.reset_readReg (r : Reg) : readReg State.reset r = 0 := by
  cases r <;> rfl

@[simp] theorem State.reset_loadWord (a : Word) : loadWord State.reset a = 0 := by
  calc loadWord State.reset a
      = Memory.read [] a.toNat := by rw [loadWord, State.reset_mem]
    _ = Config.memoryReset := Memory.read_nil a.toNat
    _ = 0 := rfl

/-! ### The fields of the status register -/

/-- `PSR[15]` is set. -/
@[simp] theorem State.reset_currentMode : currentMode State.reset = .supervisor := by
  have priv : (0x8002 : Word).msb = true := by decide
  rw [currentMode, State.reset_psr, modeOf_eq, if_pos priv]

/-- Z is set, N and P are not. -/
theorem State.reset_flags :
    State.reset.psr.getLsbD 2 = false ∧ State.reset.psr.getLsbD 1 = true ∧ State.reset.psr.getLsbD 0 = false := by
  rw [State.reset_psr]
  decide

/-- The twelve bits between the privilege and the flags are zero (10_state.md R28). -/
theorem State.reset_reserved : State.reset.psr.extractLsb' 3 12 = 0 := by
  rw [State.reset_psr]
  decide

/-- Settles O7: every element of R38's table, by the lemma about it. -/
theorem resetStateIsAsStated : Obligations.ResetStateIsAsStated := by
  obtain ⟨n, z, p⟩ := State.reset_flags
  exact ⟨State.reset_readReg, State.reset_pc, State.reset_psr, State.reset_loadWord, State.reset_sig,
    State.reset_currentMode, n, z, p, State.reset_reserved⟩

end Sys2Proof.Machine

/-! ## The permission predicate (20_memory.md R58) -/

namespace Sys2Proof.Machine

/-- 0xFFFF is the one upper address open to user mode, as the source keeps it (20_memory.md R59). -/
theorem permitted_user (a : Word) : denied .user a = false ↔ a.toNat ≤ 0x7FFF ∨ a.toNat = 0xFFFF := by
  have bound : a.toNat < 0x10000 := a.isLt
  rw [← Bool.not_eq_true, denied_user]
  omega

/-- Supervisor mode is open above the boundary, 0xFFFF included (20_memory.md R60). -/
theorem permitted_supervisor (a : Word) : denied .supervisor a = false ↔ 0x8000 ≤ a.toNat := by
  rw [← Bool.not_eq_true, denied_supervisor]
  omega

/-- Settles O18: the denied and the permitted ranges of the two modes, and each row of the table by the range its address
lies in. -/
theorem permissionPredicate : Obligations.PermissionPredicate := by
  refine ⟨denied_user, denied_supervisor, ?row0000, ?row0000s, ?row7FFF, ?row7FFFs, ?row8000, ?row8000s, ?row9000, ?row9000s,
    ?rowFFFE, ?rowFFFEs, ?rowFFFF, ?rowFFFFs⟩
  case row0000 | row7FFF | rowFFFF => exact (permitted_user _).2 (by decide)
  case row8000 | row9000 | rowFFFE => exact (denied_user _).2 (by decide)
  case row0000s | row7FFFs => exact (denied_supervisor _).2 (by decide)
  case row8000s | row9000s | rowFFFEs | rowFFFFs => exact (permitted_supervisor _).2 (by decide)

end Sys2Proof.Machine

/-! ## Sign extension (30_encoding.md R84) -/

namespace Sys2Proof

/-- R84's own form: the sign bit is bit N-1, and `mask` is what is OR-ed in when it is set. -/
theorem sext_eq_or_mask {n : Nat} {mask : Word} (hmask : 0xFFFF#16 <<< n = mask) (f : BitVec n) :
    sext n f = if f.getLsbD (n - 1) then f.setWidth 16 ||| mask else f.setWidth 16 := by
  rw [sext, BitVec.msb_eq_getLsbD_last, hmask]

/-- No field of at most 16 bits changes its two's-complement value when it is extended. -/
theorem sext_toInt {n : Nat} (hn : n ≤ 16) (f : BitVec n) : (sext n f).toInt = f.toInt := by
  rw [sext_eq_signExtend, BitVec.toInt_signExtend_of_le hn]

/-- A row of R84's table: the mask of the width, the value, and the range whose half is `bound`. -/
theorem sext_row {n bound : Nat} {mask : Word} (hn : n ≤ 16) (hmask : 0xFFFF#16 <<< n = mask)
    (hbound : 2 ^ (n - 1) = bound) (f : BitVec n) :
    sext n f = (if f.getLsbD (n - 1) then f.setWidth 16 ||| mask else f.setWidth 16) ∧
      (sext n f).toInt = f.toInt ∧ -(bound : Int) ≤ (sext n f).toInt ∧ (sext n f).toInt ≤ bound - 1 := by
  have value : (sext n f).toInt = f.toInt := sext_toInt hn f
  have least : -2 ^ (n - 1) ≤ f.toInt := BitVec.le_toInt f
  have greatest : f.toInt ≤ 2 ^ (n - 1) - 1 := BitVec.toInt_le
  have half : (2 : Int) ^ (n - 1) = bound := by exact_mod_cast hbound
  rw [half] at least greatest
  exact ⟨sext_eq_or_mask hmask f, value, value ▸ least, value ▸ greatest⟩

end Sys2Proof

namespace Sys2Proof.Machine

/-- Settles O6: the five rows of R84's table, each with its width's mask and half range. -/
theorem signExtensionReadsTwosComplement : Obligations.SignExtensionReadsTwosComplement :=
  ⟨sext_row (n := 5) (bound := 16) (by decide) (by decide) (by decide),
    sext_row (n := 6) (bound := 32) (by decide) (by decide) (by decide),
    sext_row (n := 7) (bound := 64) (by decide) (by decide) (by decide),
    sext_row (n := 9) (bound := 256) (by decide) (by decide) (by decide),
    sext_row (n := 11) (bound := 1024) (by decide) (by decide) (by decide)⟩

end Sys2Proof.Machine

/-! ## The fetch check (40_sequencer.md R123) -/

namespace Sys2Proof.Machine

/-- A failed cycle, whatever its cause, leaves the state it began in but for the cleared signals (60_exceptions.md R241). -/
theorem afterCycle_of_step_fault {s : State} {f : Fault} (h : step s = .fault f) : afterCycle s = clearSignals s :=
  congrArg (afterAnswer s) h

/-- The machine is not halted and its PC is denied: the fetch check is the first test that stops the cycle (60_exceptions.md
R247). -/
theorem step_of_fetchDenied {s : State} (hrun : MayRun s) (hdenied : fetchDenied s = true) :
    step s = .fault (.fetchPermission s.pc) :=
  (step_fault_iff s _).2 ⟨hrun, Or.inl ⟨hdenied, rfl⟩⟩

/-- Settles O13: the denied PC makes the step a fault, and a fault leaves all but the signals. -/
theorem fetchCheckEndsTheCycle : Obligations.FetchCheckEndsTheCycle := by
  intro s hrun hdenied
  have stops : step s = .fault (.fetchPermission s.pc) := step_of_fetchDenied hrun hdenied
  exact ⟨stops, afterCycle_of_step_fault stops⟩

end Sys2Proof.Machine

/-! ## The memory primitives (47_load_store.md R213) -/

namespace Sys2Proof.Machine

/-- `MemRead` after `MemWrite` at its own address. -/
@[simp] theorem loadWord_storeWord_same (s : State) (a v : Word) : loadWord (storeWord a v s) a = v := by
  rw [loadWord_storeWord, if_pos rfl]

/-- `MemWrite` changes no other cell. -/
theorem loadWord_storeWord_other (s : State) {a b : Word} (v : Word) (h : b ≠ a) :
    loadWord (storeWord a v s) b = loadWord s b := by
  rw [loadWord_storeWord, if_neg h]

/-- Settles O41: what a read gives after a write, and the elements a write leaves alone. -/
theorem memoryPrimitives : Obligations.MemoryPrimitives := fun s a v =>
  ⟨loadWord_storeWord_same s a v, fun _ hother => loadWord_storeWord_other s v hother,
    storeWord_regs s a v, storeWord_pc s a v, storeWord_psr s a v⟩

end Sys2Proof.Machine

/-! ## The permission tests of LDR and STR (47_load_store.md R214) -/

namespace Sys2Proof.Machine

/-- The dispatcher's arms of the two instructions that access data memory (47_load_store.md R211, R212). -/
theorem exec_ldr (rd rs : Reg) (imm : Word) (s : State) : exec (.ldr rd rs imm) s = execLdr rd rs imm s := rfl

theorem exec_str (rt rs : Reg) (imm : Word) (s : State) : exec (.str rt rs imm) s = execStr rt rs imm s := rfl

section
variable {s : State} {i : Instr} {rs : Reg} {imm : Word}

/-- The check of the effective address alone says whether an access completes, for a load as for a store
(47_load_store.md R210). -/
theorem exec_access_cases (access : ∃ r, i = .ldr r rs imm ∨ i = .str r rs imm) :
    (denied (currentMode s) (effectiveAddress rs imm s) = true ∧
      exec i s = .fault (.dataPermission (effectiveAddress rs imm s))) ∨
    (denied (currentMode s) (effectiveAddress rs imm s) = false ∧ ∃ t, exec i s = .next t) := by
  obtain ⟨r, rfl | rfl⟩ := access
  · rw [exec_ldr]
    exact (execLdr_cases s r rs imm).imp_right fun ⟨permitted, completes⟩ => ⟨permitted, _, completes⟩
  · rw [exec_str]
    exact (execStr_cases s r rs imm).imp_right fun ⟨permitted, completes⟩ => ⟨permitted, _, completes⟩

theorem exec_access_of_denied {m : Mode} {ea : Word} (access : ∃ r, i = .ldr r rs imm ∨ i = .str r rs imm)
    (hea : effectiveAddress rs imm s = ea) (hm : currentMode s = m) (hdenied : denied m ea = true) :
    exec i s = .fault (.dataPermission ea) := by
  subst hea hm
  obtain ⟨-, faults⟩ | ⟨permitted, -⟩ := exec_access_cases (s := s) access
  · exact faults
  · rw [hdenied] at permitted
    contradiction

theorem exec_access_of_permitted {m : Mode} {ea : Word} (access : ∃ r, i = .ldr r rs imm ∨ i = .str r rs imm)
    (hea : effectiveAddress rs imm s = ea) (hm : currentMode s = m) (hpermitted : denied m ea = false) :
    ∃ t, exec i s = .next t := by
  subst hea hm
  obtain ⟨denies, -⟩ | ⟨-, completes⟩ := exec_access_cases (s := s) access
  · rw [hpermitted] at denies
    contradiction
  · exact completes

end

/-- Settles O19: each test is the row of the permission table (20_memory.md R58) for its mode and address; 0xFFFF is open in
both modes (R59, R60). -/
theorem loadStorePermissionTests : Obligations.LoadStorePermissionTests := by
  obtain ⟨-, -, user0000, supervisor0000, -, -, -, -, user9000, supervisor9000, -, -, userFFFF, supervisorFFFF⟩ :=
    permissionPredicate
  intro s i rs imm access
  refine ⟨fun hea => ⟨fun hm => ?user9000, fun hm => ?supervisor9000⟩,
    fun hea => ⟨fun hm => ?user0000, fun hm => ?supervisor0000⟩, fun hea => ?bothFFFF⟩
  case user9000 => exact exec_access_of_denied access hea hm user9000
  case supervisor9000 => exact exec_access_of_permitted access hea hm supervisor9000
  case user0000 => exact exec_access_of_permitted access hea hm user0000
  case supervisor0000 => exact exec_access_of_denied access hea hm supervisor0000
  case bothFFFF =>
    cases hm : currentMode s with
    | user => exact exec_access_of_permitted access hea hm userFFFF
    | supervisor => exact exec_access_of_permitted access hea hm supervisorFFFF

end Sys2Proof.Machine

/-! ## The two modes (49_trap_rti.md R230) -/

namespace Sys2Proof.Machine

/-! ### What the shared operations do to PSR -/

@[simp] theorem setMode_currentMode (s : State) (m : Mode) : currentMode (setMode m s) = m :=
  modeOf_withMode m s.psr

/-- Entry raises the privilege from either mode (49_trap_rti.md R231). -/
@[simp] theorem enterTrap_currentMode (s : State) (c : Parameters) (imm : BitVec 8) :
    currentMode (enterTrap c imm s) = .supervisor := by
  rw [enterTrap, setPc_currentMode, setMode_currentMode]

/-- Return drops it from either mode (49_trap_rti.md R233). -/
@[simp] theorem returnFromTrap_currentMode (s : State) : currentMode (returnFromTrap s) = .user :=
  setMode_currentMode _ _

@[simp] theorem branchOn_psr (s : State) (mask : BitVec 3) (imm : Word) : (branchOn mask imm s).psr = s.psr := by
  rw [branchOn_eq]

/-! ### What the instructions do to PSR -/

section
variable {i : Instr} {s t : State}

/-- The condition code is all of PSR that any other instruction writes, if it writes PSR at all (10_state.md R31, R32). -/
theorem exec_psr_of_ne_trap_rti (h : exec i s = .next t) (htrap : ∀ imm, i ≠ .trap imm) (hrti : i ≠ .rti) :
    t.psr = s.psr ∨ ∃ code, t.psr = withCode code s.psr := by
  cases i
  case trap imm => exact absurd rfl (htrap imm)
  case rti => exact absurd rfl hrti
  case illegal3 | illegalB | illegalE => cases h
  case nop | jmpr | jmp | jsrr | jsr =>
    cases h
    exact .inl rfl
  case brp | brz | brzp | brn | brnp | brnz | brnzp =>
    cases h
    exact .inl (branchOn_psr ..)
  case add | mul | sub | div | addi | and | not | or | xor | andi | sll | sra | srl | mod | const | hiconst =>
    cases h
    exact .inr ⟨_, writeResult_psr ..⟩
  case cmp | cmpu | cmpi | cmpiu =>
    cases h
    exact .inr ⟨_, setNzp_psr ..⟩
  case ldr rd rs imm =>
    obtain ⟨-, faults⟩ | ⟨-, completes⟩ := execLdr_cases s rd rs imm
    · cases faults.symm.trans h
    · cases completes.symm.trans h
      exact .inr ⟨_, writeResult_psr ..⟩
  case str rt rs imm =>
    obtain ⟨-, faults⟩ | ⟨-, completes⟩ := execStr_cases s rt rs imm
    · cases faults.symm.trans h
    · cases completes.symm.trans h
      exact .inl rfl

/-- `PSR[15]` after every instruction: the condition code lies outside it. -/
theorem exec_next_currentMode (h : exec i s = .next t) : currentMode t = nextMode i s := by
  unfold nextMode
  split
  next imm =>
    cases h
    exact enterTrap_currentMode s Config.standard imm
  next =>
    cases h
    exact returnFromTrap_currentMode s
  next htrap hrti =>
    obtain kept | ⟨code, flags⟩ := exec_psr_of_ne_trap_rti h htrap hrti
    · rw [currentMode, kept, currentMode]
    · rw [currentMode, flags, modeOf_withCode, currentMode]

/-- Only an effective address can make the outcome depend on the state: without one, an instruction completes everywhere or, its
opcode unassigned, nowhere (60_exceptions.md R240). -/
theorem exec_completes_or_faults_of_no_access (hno : ∀ r rs imm, i ≠ .ldr r rs imm ∧ i ≠ .str r rs imm) :
    (∀ s, ∃ t, exec i s = .next t) ∨ ∃ f, ∀ s, exec i s = .fault f := by
  cases i
  case ldr rd rs imm => exact absurd rfl (hno rd rs imm).1
  case str rt rs imm => exact absurd rfl (hno rt rs imm).2
  case illegal3 | illegalB | illegalE => exact .inr ⟨_, fun _ => rfl⟩
  all_goals exact .inl fun _ => ⟨_, rfl⟩

end

/-- Settles O20: the mode at reset, after each instruction and after a failed cycle; and no privilege test, since without a data
access no part of the state decides whether an instruction completes. -/
theorem onlyTrapAndRtiChangeMode : Obligations.OnlyTrapAndRtiChangeMode := by
  refine ⟨State.reset_currentMode, State.reset_psr, fun imm s => ⟨_, rfl, enterTrap_currentMode s Config.standard imm⟩,
    fun s => ⟨_, rfl, returnFromTrap_currentMode s⟩, fun _ _ _ => exec_next_currentMode, fun s f hf => ?failed,
    fun i s psr hno => ?privilege⟩
  case failed => rw [afterCycle_of_step_fault hf, clearSignals_currentMode]
  case privilege =>
    obtain always | ⟨f, never⟩ := exec_completes_or_faults_of_no_access hno
    · exact iff_of_true (always s) (always _)
    · simp only [never, reduceCtorEq, exists_false]

end Sys2Proof.Machine

/-! ## The order of the fatal conditions (60_exceptions.md R247) -/

namespace Sys2Proof

/-- The opcode and the twelve bits below it are the whole word. -/
theorem field_append_field (w : Word) : field 12 4 w ++ field 0 12 w = w :=
  (BitVec.extractLsb'_append_extractLsb'_eq_extractLsb' (by decide)).trans BitVec.extractLsb'_eq_self

end Sys2Proof

namespace Sys2Proof.Machine

/-! ### What the class of a word's opcode says of its execution -/

section
variable {w : Word}

/-- A word whose opcode no class has is fatal, and the fault carries the word fetched (60_exceptions.md R243). -/
theorem exec_decode_of_classOf_none (h : Config.classOf (field 12 4 w) = none) (s : State) :
    exec (decode w) s = .fault (.illegalOpcode w) := by
  have opcode : ∀ op, field 12 4 w = op → unrecognized op (field 0 12 w) = .fault (.illegalOpcode w) := by
    rintro _ rfl
    rw [unrecognized, raiseFatal, field_append_field]
  have unassigned : decode w = decodeUnassigned Config.standard w := by
    rw [Config.classOf] at h
    simp only [decode, decodeUnder, h]
  have oneOfThree := (Parameters.classOf_eq_none_iff Config.standard_proper _).1 h
  rw [unassigned, decodeUnassigned]
  split
  next isFirst => exact opcode _ isFirst
  next notFirst =>
    split
    next isSecond => exact opcode _ isSecond
    next notSecond => exact opcode _ ((oneOfThree.resolve_left notFirst).resolve_left notSecond)

/-- The Load and Store classes decode to an access with the same base register and offset (30_encoding.md R81). -/
theorem decode_access (h : Config.classOf (field 12 4 w) = some .load ∨ Config.classOf (field 12 4 w) = some .store) :
    ∃ r, decode w = .ldr r (regField 6 w) (sext 6 (field 0 6 w)) ∨
      decode w = .str r (regField 6 w) (sext 6 (field 0 6 w)) := by
  rw [Config.classOf] at h
  obtain load | store := h
  · exact ⟨regField 9 w, .inl (by simp only [decode, decodeUnder, load])⟩
  · exact ⟨regField 9 w, .inr (by simp only [decode, decodeUnder, store])⟩

/-- No word of the eleven other classes meets a fatal condition of its own (60_exceptions.md R240). -/
theorem exec_decode_completes {k : OpClass} (h : Config.classOf (field 12 4 w) = some k)
    (hk : ¬ (k = .load ∨ k = .store)) (s : State) : ∃ t, exec (decode w) s = .next t := by
  rw [Config.classOf] at h
  cases k <;> simp only [decode, decodeUnder, h]
  case load => exact absurd (.inl rfl) hk
  case store => exact absurd (.inr rfl) hk
  case rti | const | hiConst | trap => exact ⟨_, rfl⟩
  case branch | comparative | jsr | shiftMod | jump =>
    simp only [decodeBranch, decodeComparative, decodeJsr, decodeShiftMod, decodeJump]
    split <;> exact ⟨_, rfl⟩
  case arithmetic | logical =>
    simp only [decodeArithmetic, decodeLogical]
    split
    next => exact ⟨_, rfl⟩
    next => split <;> exact ⟨_, rfl⟩

end

/-- The opcode test comes before the data check: a decoded word is fatal for its class alone, or as an access that the mode may
not make. -/
theorem exec_decode_fault_iff (w : Word) (s : State) (f : Fault) :
    exec (decode w) s = .fault f ↔
      (Config.classOf (field 12 4 w) = none ∧ f = .illegalOpcode w) ∨
      ((Config.classOf (field 12 4 w) = some .load ∨ Config.classOf (field 12 4 w) = some .store) ∧
        let ea := effectiveAddress (regField 6 w) (sext 6 (field 0 6 w)) s
        denied (currentMode s) ea = true ∧ f = .dataPermission ea) := by
  cases hclass : Config.classOf (field 12 4 w) with
  | none => simp [exec_decode_of_classOf_none hclass, eq_comm (b := f)]
  | some k =>
    by_cases hk : k = .load ∨ k = .store
    · have access := decode_access (w := w) (by simpa only [hclass, Option.some.injEq] using hk)
      obtain ⟨denies, faults⟩ | ⟨permitted, t, completes⟩ := exec_access_cases (s := s) access
      · simp [faults, denies, hk, eq_comm (b := f)]
      · simp [completes, permitted]
    · obtain ⟨t, completes⟩ := exec_decode_completes hclass hk s
      simp [completes, hk]

/-! ### The halt test -/

/-- The halt test comes before every cycle, so no fuel is used at the sentinel (40_sequencer.md R132). -/
theorem runLoop_of_halted {s : State} (h : halted s = true) (n : Nat) : runLoop n s = .halted s := by
  cases n with
  | zero => rw [runLoop_zero, if_pos h]
  | succ n => rw [runLoop_succ, if_pos h]

/-- Settles O14: the sequencer's tests by `step_fault_iff`, and the dispatched word's own by `exec_decode_fault_iff`. -/
theorem fatalConditionsInOrder : Obligations.FatalConditionsInOrder := by
  refine ⟨fun n s hpc => runLoop_of_halted ((halted_iff s).2 hpc) n, fun s f => ?_⟩
  calc step s = .fault f
      ↔ MayRun s ∧ ((fetchDenied s = true ∧ f = .fetchPermission s.pc) ∨
          (fetchDenied s = false ∧ exec (decode (fetch s)) s = .fault f)) := step_fault_iff s f
    _ ↔ _ := by
      rw [mayRun_iff, exec_decode_fault_iff, and_or_left (a := fetchDenied s = false)]
      rfl

end Sys2Proof.Machine

/-! ## Round trip: decoding an encoded instruction (30_encoding.md R103, R104) -/

namespace Sys2Proof

section
variable {c : Parameters}

/-- A field placed apart from the bits read leaves them zero. -/
theorem field_place_apart {lo len lo' n : Nat} (f : BitVec n) (h : lo' + n ≤ lo ∨ lo + len ≤ lo') :
    field lo len (place lo' f) = 0 :=
  h.elim (field_place_below lo len lo' n f) (field_place_above lo len lo' n f)

/-- A word of an opcode that no class has is told from the others by its opcode alone (30_encoding.md R98). -/
theorem decodeUnder_place_of_classOf_none {op : BitVec 4} (h : c.classOf op = none) (low : BitVec 12) :
    decodeUnder c (place 12 op ||| place 0 low) =
      if op = c.unassigned1 then .illegal3 low else if op = c.unassigned2 then .illegalB low else .illegalE low := by
  simp (disch := decide) [decodeUnder, decodeUnassigned, field_or, field_place_same, field_place_apart, h]

/-- In each format the fields stand apart, so that each is read back as it was placed; the tables read their numbers back, and
an operand that fits its field is the extension of it. -/
theorem decodeUnder_encodeUnder (hc : c.Proper) {i : Instr} (hi : WellFormed i = true) :
    decodeUnder c (encodeUnder c i) = i := by
  have noClass := Parameters.classOf_eq_none_iff hc
  obtain ⟨d12, d13, d23⟩ := Parameters.unassigned_distinct hc
  cases i
  case illegal3 low =>
    rw [encodeUnder, decodeUnder_place_of_classOf_none ((noClass _).2 (.inl rfl)), if_pos rfl]
  case illegalB low =>
    rw [encodeUnder, decodeUnder_place_of_classOf_none ((noClass _).2 (.inr (.inl rfl))), if_neg d12.symm, if_pos rfl]
  case illegalE low =>
    rw [encodeUnder, decodeUnder_place_of_classOf_none ((noClass _).2 (.inr (.inr rfl))), if_neg d13.symm, if_neg d23.symm]
  case add | mul | sub | div | and | not | or | xor =>
    simp (disch := decide) [decodeUnder, encodeUnder, decodeArithmetic, decodeLogical, encodeRegForm, placeOpcode, placeReg,
      regField, field_or, field_place_same, field_place_apart, Parameters.classOf_opcodeOf hc,
      Parameters.arithOpOf_arithSubop hc, Parameters.logicOpOf_logicSubop hc]
  case brp | brz | brzp | brn | brnp | brnz | brnzp | addi | andi | cmpi | ldr | str | const | jmp =>
    simp (disch := decide) [decodeUnder, encodeUnder, decodeBranch, decodeArithmetic, decodeLogical, decodeComparative,
      decodeJump, encodeBranch, encodeImmForm, encodeCompare, encodeMem, encodeJumpImm, placeOpcode, placeReg, regField, field_or,
      field_place_same, field_place_apart, Parameters.classOf_opcodeOf hc, Parameters.branchOpOf_branchSubop hc,
      Parameters.cmpOpOf_cmpSubop hc, sext_field_of_fits _ _ (by decide) hi]
  case cmpiu =>
    simp (disch := decide) [decodeUnder, encodeUnder, decodeComparative, encodeCompare, placeOpcode, placeReg, regField,
      field_or, field_place_same, field_place_apart, Parameters.classOf_opcodeOf hc, Parameters.cmpOpOf_cmpSubop hc,
      zext_field_of_fits _ _ hi]
  case nop | cmp | cmpu | jsrr | jsr | sll | sra | srl | mod | jmpr | rti | hiconst | trap =>
    simp (disch := decide) [decodeUnder, encodeUnder, decodeBranch, decodeComparative, decodeJsr, decodeShiftMod, decodeJump,
      encodeBranch, encodeCompare, encodeJumpReg, encodeJumpImm, encodeShift, placeOpcode, placeReg, regField, field_or,
      field_place_same, field_place_apart, Parameters.classOf_opcodeOf hc, Parameters.branchOpOf_branchSubop hc,
      Parameters.cmpOpOf_cmpSubop hc, Parameters.shiftOpOf_shiftSubop hc]

end

/-- Settles O57: field by field, and the three opcodes that no class has by their order. -/
theorem roundTripUnderEveryConfiguration : Obligations.RoundTripUnderEveryConfiguration :=
  fun _ hc _ hi => decodeUnder_encodeUnder hc hi

/-- Settles O1: the standard configuration is a proper one. -/
theorem decodeEncodeRoundTrip : Obligations.DecodeEncodeRoundTrip :=
  fun _ hi => decodeUnder_encodeUnder Config.standard_proper hi

end Sys2Proof

/-! ## What a word decodes to (30_encoding.md R83, R97, R104) -/

namespace Sys2Proof

/-! ### Putting a field back where it was read -/

theorem place_field (lo n : Nat) (w : Word) : place lo (field lo n w) = w &&& place lo (BitVec.allOnes n) := by
  ext i hi
  by_cases below : i < lo
  · simp [place, field, below]
  · have here : lo + (i - lo) = i := by omega
    simp [place, field, below, here, BitVec.getLsbD_eq_getElem hi, Bool.and_comm]

theorem placeReg_regField (lo : Nat) (w : Word) : placeReg lo (regField lo w) = w &&& place lo (BitVec.allOnes 3) := by
  rw [placeReg, regField, Reg.toBits_ofBits, place_field]

/-- The low bits of an extended immediate are the field it was extended from (30_encoding.md R84). -/
theorem field_sext {n : Nat} (f : BitVec n) (hn : n ≤ 16) : field 0 n (sext n f) = f := by
  ext i hi
  have inWord : i < 16 := by omega
  simp [field, sext_eq_signExtend, BitVec.getElem_signExtend, BitVec.getLsbD_eq_getElem inWord, hi]

theorem field_zext {n : Nat} (f : BitVec n) (hn : n ≤ 16) : field 0 n (zext n f) = f := by
  ext i hi
  have inWord : i < 16 := by omega
  simp [field, zext, inWord, BitVec.getLsbD_eq_getElem hi]

/-- The bit that tells two forms of a class apart, where it is not one. -/
theorem and_place_of_bit_ne_one {w : Word} {lo : Nat} (h : field lo 1 w ≠ 1) : w &&& place lo (BitVec.allOnes 1) = 0 := by
  have zero : field lo 1 w = 0 := BitVec.eq_zero_or_eq_one _ |>.resolve_right h
  rw [← place_field, zero]
  simp [place]

/-- Bits that are clear in the word may be left out of what is kept of it. -/
theorem and_eq_of_clear {w clear kept all : Word} (hclear : w &&& clear = 0) (hall : kept ||| clear = all) :
    w &&& kept = w &&& all := by
  calc w &&& kept = w &&& kept ||| w &&& clear := by rw [hclear]; exact (BitVec.or_zero).symm
    _ = w &&& all := by rw [← hall, BitVec.and_or_distrib_left]

/-! ### The sub-op numbers of the standard configuration, read back -/

theorem branchSubop_branchOpOf : ∀ b, Config.branchSubop (Config.standard.branchOpOf b) = b := by decide
theorem arithSubop_arithOpOf : ∀ b, Config.arithSubop (Config.standard.arithOpOf b) = b := by decide
theorem logicSubop_logicOpOf : ∀ b, Config.logicSubop (Config.standard.logicOpOf b) = b := by decide
theorem cmpSubop_cmpOpOf : ∀ b, Config.cmpSubop (Config.standard.cmpOpOf b) = b := by decide
theorem shiftSubop_shiftOpOf : ∀ b, Config.shiftSubop (Config.standard.shiftOpOf b) = b := by decide

/-! ### Encoding the instruction of a word, class by class -/

/-- Encoding the instruction gives the word back but for the instruction's ignored bits (30_encoding.md R83). -/
def EncodesBack (w : Word) (i : Instr) : Prop := encode i = w &&& ~~~ignoredBits i

section
variable {w : Word}

theorem encodesBack_decodeBranch (h : Config.opcodeOf .branch = field 12 4 w) :
    EncodesBack w (decodeBranch Config.standard w) := by
  have sub := branchSubop_branchOpOf (field 9 3 w)
  unfold decodeBranch EncodesBack
  cases hop : Config.standard.branchOpOf (field 9 3 w) <;> rw [hop] at sub
  case never =>
    have noOffset : place 0 (field 0 9 (0 : Word)) = w &&& 0#16 := by rw [BitVec.and_zero]; rfl
    simp only [encode, encodeUnder, encodeBranch, placeOpcode, Config.standard_opcodeOf, h, Config.standard_branchSubop, sub,
      place_field, noOffset, ignoredBits, ← BitVec.and_or_distrib_left]
    rfl
  all_goals
    simp (disch := decide) only [encode, encodeUnder, encodeBranch, placeOpcode, Config.standard_opcodeOf, h,
      Config.standard_branchSubop, sub, place_field, field_sext, ignoredBits, ← BitVec.and_or_distrib_left]
    rfl

theorem encodesBack_decodeArithmetic (h : Config.opcodeOf .arithmetic = field 12 4 w) :
    EncodesBack w (decodeArithmetic Config.standard w) := by
  have sub := arithSubop_arithOpOf (field 3 2 w)
  unfold decodeArithmetic EncodesBack
  split
  next immediate =>
    have bit : 1#1 = field 5 1 w := immediate.symm
    simp (disch := decide) only [encode, encodeUnder, encodeImmForm, placeOpcode, Config.standard_opcodeOf, h, bit,
      placeReg_regField, place_field, field_sext, ignoredBits, ← BitVec.and_or_distrib_left]
    rfl
  next register =>
    cases hop : Config.standard.arithOpOf (field 3 2 w) <;> rw [hop] at sub
    all_goals
      simp only [encode, encodeUnder, encodeRegForm, placeOpcode, Config.standard_opcodeOf, h,
        Config.standard_arithSubop, sub, placeReg_regField, place_field, ignoredBits, ← BitVec.and_or_distrib_left]
      exact and_eq_of_clear (and_place_of_bit_ne_one register) rfl

theorem encodesBack_decodeLogical (h : Config.opcodeOf .logical = field 12 4 w) :
    EncodesBack w (decodeLogical Config.standard w) := by
  have sub := logicSubop_logicOpOf (field 3 2 w)
  unfold decodeLogical EncodesBack
  split
  next immediate =>
    have bit : 1#1 = field 5 1 w := immediate.symm
    simp (disch := decide) only [encode, encodeUnder, encodeImmForm, placeOpcode, Config.standard_opcodeOf, h, bit,
      placeReg_regField, place_field, field_sext, ignoredBits, ← BitVec.and_or_distrib_left]
    rfl
  next register =>
    cases hop : Config.standard.logicOpOf (field 3 2 w) <;> rw [hop] at sub
    all_goals
      simp only [encode, encodeUnder, encodeRegForm, placeOpcode, Config.standard_opcodeOf, h,
        Config.standard_logicSubop, sub, placeReg_regField, place_field, ignoredBits, ← BitVec.and_or_distrib_left]
      exact and_eq_of_clear (and_place_of_bit_ne_one register) rfl

theorem encodesBack_decodeComparative (h : Config.opcodeOf .comparative = field 12 4 w) :
    EncodesBack w (decodeComparative Config.standard w) := by
  have sub := cmpSubop_cmpOpOf (field 7 2 w)
  unfold decodeComparative EncodesBack
  cases hop : Config.standard.cmpOpOf (field 7 2 w) <;> rw [hop] at sub
  all_goals
    simp (disch := decide) only [encode, encodeUnder, encodeCompare, placeOpcode, Config.standard_opcodeOf, h,
      Config.standard_cmpSubop, sub, placeReg_regField, place_field, field_sext, field_zext, ignoredBits,
      ← BitVec.and_or_distrib_left]
    rfl

theorem encodesBack_decodeShiftMod (h : Config.opcodeOf .shiftMod = field 12 4 w) :
    EncodesBack w (decodeShiftMod Config.standard w) := by
  have sub := shiftSubop_shiftOpOf (field 4 2 w)
  unfold decodeShiftMod EncodesBack
  cases hop : Config.standard.shiftOpOf (field 4 2 w) <;> rw [hop] at sub
  all_goals
    simp only [encode, encodeUnder, encodeShift, placeOpcode, Config.standard_opcodeOf, h, Config.standard_shiftSubop, sub,
      placeReg_regField, place_field, ignoredBits, ← BitVec.and_or_distrib_left]
    rfl

theorem encodesBack_decodeJsr (h : Config.opcodeOf .jsr = field 12 4 w) : EncodesBack w (decodeJsr w) := by
  unfold decodeJsr EncodesBack
  split
  next immediate =>
    have bit : 1#1 = field 11 1 w := immediate.symm
    simp only [encode, encodeUnder, encodeJumpImm, placeOpcode, Config.standard_opcodeOf, h, bit, place_field,
      ignoredBits, ← BitVec.and_or_distrib_left]
    rfl
  next register =>
    simp only [encode, encodeUnder, encodeJumpReg, placeOpcode, Config.standard_opcodeOf, h, placeReg_regField, place_field,
      ignoredBits, ← BitVec.and_or_distrib_left]
    exact and_eq_of_clear (and_place_of_bit_ne_one register) rfl

theorem encodesBack_decodeJump (h : Config.opcodeOf .jump = field 12 4 w) : EncodesBack w (decodeJump w) := by
  unfold decodeJump EncodesBack
  split
  next immediate =>
    have bit : 1#1 = field 11 1 w := immediate.symm
    simp (disch := decide) only [encode, encodeUnder, encodeJumpImm, placeOpcode, Config.standard_opcodeOf, h, bit,
      place_field, field_sext, ignoredBits, ← BitVec.and_or_distrib_left]
    rfl
  next register =>
    simp only [encode, encodeUnder, encodeJumpReg, placeOpcode, Config.standard_opcodeOf, h, placeReg_regField, place_field,
      ignoredBits, ← BitVec.and_or_distrib_left]
    exact and_eq_of_clear (and_place_of_bit_ne_one register) rfl

/-- The three opcodes that no class has, each with its instruction (30_encoding.md R98; log 25). -/
theorem decodeUnassigned_cases {c : Parameters} (hc : c.Proper) (h : c.classOf (field 12 4 w) = none) :
    (field 12 4 w = c.unassigned1 ∧ decodeUnassigned c w = .illegal3 (field 0 12 w)) ∨
    (field 12 4 w = c.unassigned2 ∧ decodeUnassigned c w = .illegalB (field 0 12 w)) ∨
    (field 12 4 w = c.unassigned3 ∧ decodeUnassigned c w = .illegalE (field 0 12 w)) := by
  have oneOfThree := (Parameters.classOf_eq_none_iff hc _).1 h
  unfold decodeUnassigned
  split
  next isFirst => exact .inl ⟨isFirst, rfl⟩
  next notFirst =>
    split
    next isSecond => exact .inr (.inl ⟨isSecond, rfl⟩)
    next notSecond => exact .inr (.inr ⟨(oneOfThree.resolve_left notFirst).resolve_left notSecond, rfl⟩)

theorem encodesBack_decodeUnassigned (h : Config.standard.classOf (field 12 4 w) = none) :
    EncodesBack w (decodeUnassigned Config.standard w) := by
  have whole : place 12 (field 12 4 w) ||| place 0 (field 0 12 w) = w &&& ~~~0 := by
    rw [place_field, place_field, ← BitVec.and_or_distrib_left]
    rfl
  obtain ⟨opcode, e⟩ | ⟨opcode, e⟩ | ⟨opcode, e⟩ := decodeUnassigned_cases Config.standard_proper h
  all_goals
    rw [e, EncodesBack, encode, encodeUnder, ← opcode]
    exact whole

/-- Every bit of a word that its instruction does not ignore is kept. -/
theorem encodesBack_decode (w : Word) : EncodesBack w (decode w) := by
  unfold decode decodeUnder
  cases hclass : Config.standard.classOf (field 12 4 w) with
  | none => exact encodesBack_decodeUnassigned hclass
  | some k =>
    have h : Config.opcodeOf k = field 12 4 w := Parameters.classOf_eq_some hclass
    cases k
    case branch => exact encodesBack_decodeBranch h
    case arithmetic => exact encodesBack_decodeArithmetic h
    case comparative => exact encodesBack_decodeComparative h
    case jsr => exact encodesBack_decodeJsr h
    case logical => exact encodesBack_decodeLogical h
    case shiftMod => exact encodesBack_decodeShiftMod h
    case jump => exact encodesBack_decodeJump h
    case load | store | rti | const | hiConst | trap =>
      simp (disch := decide) only [EncodesBack, encode, encodeUnder, encodeMem, placeOpcode, Config.standard_opcodeOf, h,
        placeReg_regField, place_field, field_sext, ignoredBits, ← BitVec.and_or_distrib_left]
      rfl

end

/-- Settles O2: class by class, each field is put back where it was read. -/
theorem encodeDecodeClearsOnlyIgnoredBits : Obligations.EncodeDecodeClearsOnlyIgnoredBits := encodesBack_decode

/-! ### The rows of the table -/

/-- Every instruction's own word has the fixed bits of its row (30_encoding.md R97). -/
theorem encode_and_rowMask : ∀ i, encode i &&& rowMask i = rowMatch i
  | .nop => Laws.EncodeRow.nop
  | .brp imm => Laws.EncodeRow.brp imm
  | .brz imm => Laws.EncodeRow.brz imm
  | .brzp imm => Laws.EncodeRow.brzp imm
  | .brn imm => Laws.EncodeRow.brn imm
  | .brnp imm => Laws.EncodeRow.brnp imm
  | .brnz imm => Laws.EncodeRow.brnz imm
  | .brnzp imm => Laws.EncodeRow.brnzp imm
  | .add rd rs rt => Laws.EncodeRow.add rd rs rt
  | .mul rd rs rt => Laws.EncodeRow.mul rd rs rt
  | .sub rd rs rt => Laws.EncodeRow.sub rd rs rt
  | .div rd rs rt => Laws.EncodeRow.div rd rs rt
  | .addi rd rs imm => Laws.EncodeRow.addi rd rs imm
  | .cmp rs rt => Laws.EncodeRow.cmp rs rt
  | .cmpu rs rt => Laws.EncodeRow.cmpu rs rt
  | .cmpi rs imm => Laws.EncodeRow.cmpi rs imm
  | .cmpiu rs imm => Laws.EncodeRow.cmpiu rs imm
  | .jsrr rs => Laws.EncodeRow.jsrr rs
  | .jsr imm => Laws.EncodeRow.jsr imm
  | .and rd rs rt => Laws.EncodeRow.and rd rs rt
  | .not rd rs => Laws.EncodeRow.not rd rs
  | .or rd rs rt => Laws.EncodeRow.or rd rs rt
  | .xor rd rs rt => Laws.EncodeRow.xor rd rs rt
  | .andi rd rs imm => Laws.EncodeRow.andi rd rs imm
  | .ldr rd rs imm => Laws.EncodeRow.ldr rd rs imm
  | .str rt rs imm => Laws.EncodeRow.str rt rs imm
  | .rti => Laws.EncodeRow.rti
  | .const rd imm => Laws.EncodeRow.const rd imm
  | .sll rd rs amt => Laws.EncodeRow.sll rd rs amt
  | .sra rd rs amt => Laws.EncodeRow.sra rd rs amt
  | .srl rd rs amt => Laws.EncodeRow.srl rd rs amt
  | .mod rd rs rt => Laws.EncodeRow.mod rd rs rt
  | .jmpr rs => Laws.EncodeRow.jmpr rs
  | .jmp imm => Laws.EncodeRow.jmp imm
  | .hiconst rd imm => Laws.EncodeRow.hiconst rd imm
  | .trap imm => Laws.EncodeRow.trap imm
  | .illegal3 low => Laws.EncodeRow.illegal3 low
  | .illegalB low => Laws.EncodeRow.illegalB low
  | .illegalE low => Laws.EncodeRow.illegalE low

/-- No bit that tells the rows apart is ignored (30_encoding.md R83). -/
theorem not_ignoredBits_and_rowMask (i : Instr) : ~~~ignoredBits i &&& rowMask i = rowMask i := by
  cases i <;> simp only [ignoredBits, rowMask] <;> rfl

/-- A word has the fixed bits of the row it decodes to: encoding it back keeps them. -/
theorem and_rowMask_decode (w : Word) : w &&& rowMask (decode w) = rowMatch (decode w) := by
  calc w &&& rowMask (decode w)
      = w &&& ~~~ignoredBits (decode w) &&& rowMask (decode w) := by
        rw [BitVec.and_assoc, not_ignoredBits_and_rowMask]
    _ = encode (decode w) &&& rowMask (decode w) := by rw [encodesBack_decode w]
    _ = rowMatch (decode w) := encode_and_rowMask _

/-- The mask and match of each of the 39 rows (30_encoding.md R97). -/
def rows : List (Word × Word) :=
  [(0xFE00, 0x0000), (0xFE00, 0x0200), (0xFE00, 0x0400), (0xFE00, 0x0600), (0xFE00, 0x0800), (0xFE00, 0x0A00),
    (0xFE00, 0x0C00), (0xFE00, 0x0E00), (0xF038, 0x1000), (0xF038, 0x1008), (0xF038, 0x1010), (0xF038, 0x1018),
    (0xF020, 0x1020), (0xF180, 0x2000), (0xF180, 0x2080), (0xF180, 0x2100), (0xF180, 0x2180), (0xF000, 0x3000),
    (0xF800, 0x4000), (0xF800, 0x4800), (0xF038, 0x5000), (0xF038, 0x5008), (0xF038, 0x5010), (0xF038, 0x5018),
    (0xF020, 0x5020), (0xF000, 0x6000), (0xF000, 0x7000), (0xF000, 0x8000), (0xF000, 0x9000), (0xF030, 0xA000),
    (0xF030, 0xA010), (0xF030, 0xA020), (0xF030, 0xA030), (0xF000, 0xB000), (0xF800, 0xC000), (0xF800, 0xC800),
    (0xF000, 0xD000), (0xF000, 0xE000), (0xF000, 0xF000)]

theorem row_mem_rows (i : Instr) : (rowMask i, rowMatch i) ∈ rows := by
  cases i <;> simp [rowMask, rowMatch, rows]

/-- Two different rows fix some bit differently, so that no word matches both. -/
theorem rows_disjoint : rows.Pairwise fun p q => p.2 &&& q.1 ≠ q.2 &&& p.1 := by
  decide

theorem row_eq_of_matches {w : Word} {i j : Instr} (hi : w &&& rowMask i = rowMatch i) (hj : w &&& rowMask j = rowMatch j) :
    rowMask j = rowMask i ∧ rowMatch j = rowMatch i := by
  have agree : rowMatch j &&& rowMask i = rowMatch i &&& rowMask j := by
    rw [← hi, ← hj, BitVec.and_assoc, BitVec.and_assoc, BitVec.and_comm (rowMask j)]
  by_contra differ
  have symmetric : Std.Symm fun p q : Word × Word => p.2 &&& q.1 ≠ q.2 &&& p.1 := ⟨fun _ _ => Ne.symm⟩
  exact rows_disjoint.forall (row_mem_rows j) (row_mem_rows i) (fun same => differ (Prod.mk.inj same)) agree

/-- Settles O3: the decoded row matches, and no two rows can match one word. -/
theorem wordMatchesExactlyItsRow : Obligations.WordMatchesExactlyItsRow := fun w =>
  ⟨and_rowMask_decode w, fun _ hj => row_eq_of_matches (and_rowMask_decode w) hj⟩

/-! ### Well-formed operands -/

theorem fitsSigned_sext {n : Nat} (f : BitVec n) (hn : n ≤ 16) : fitsSigned n (sext n f) = true := by
  have least : -2 ^ (n - 1) ≤ f.toInt := BitVec.le_toInt f
  have greatest : f.toInt ≤ 2 ^ (n - 1) - 1 := BitVec.toInt_le
  rw [fitsSigned, sext_toInt hn, Bool.and_eq_true, decide_eq_true_eq, decide_eq_true_eq]
  omega

theorem fitsUnsigned_zext {n : Nat} (f : BitVec n) (hn : n ≤ 16) : fitsUnsigned n (zext n f) = true := by
  rw [fitsUnsigned, decide_eq_true_eq, zext, BitVec.toNat_setWidth_of_le hn]
  exact f.isLt

/-- Settles O4: the immediates the decoder makes are extensions of fields of their own width. -/
theorem decodedInstructionIsWellFormed : Obligations.DecodedInstructionIsWellFormed := by
  intro w
  unfold decode decodeUnder
  cases Config.standard.classOf (field 12 4 w) with
  | none =>
    unfold decodeUnassigned
    split_ifs <;> rfl
  | some k =>
    cases k
    case rti | hiConst | trap => rfl
    case load | store | const => exact fitsSigned_sext _ (by decide)
    case branch | comparative | jsr | shiftMod | jump =>
      simp only [decodeBranch, decodeComparative, decodeJsr, decodeShiftMod, decodeJump]
      split <;> simp (disch := decide) [WellFormed, fitsSigned_sext, fitsUnsigned_zext]
    case arithmetic | logical =>
      simp only [decodeArithmetic, decodeLogical]
      split
      next => exact fitsSigned_sext _ (by decide)
      next => split <;> rfl

/-- Settles O5, by running the decoder on each word. -/
theorem sampleWordsDecode : Obligations.SampleWordsDecode := by
  unfold Obligations.SampleWordsDecode
  decide

end Sys2Proof

/-! ## What an instruction can do (40_sequencer.md R126, R127), under any configuration -/

namespace Sys2Proof.Machine

/-! ### The dispatcher -/

/-- The dispatcher is the configured one at the spec's values of the parameters. -/
theorem execUnder_standard (i : Instr) (s : State) : execUnder Config.standard i s = exec i s := by
  cases i <;> rfl

theorem stepUnder_standard (s : State) : stepUnder Config.standard s = step s := by
  have dispatchers : execUnder Config.standard = exec := funext fun i => funext (execUnder_standard i)
  show haltTest (runCycleWith (decodeUnder Config.standard) (execUnder Config.standard)) s = _
  rw [dispatchers]
  rfl

theorem runLoopUnder_standard (n : Nat) (s : State) : runLoopUnder Config.standard n s = runLoop n s := by
  have dispatchers : execUnder Config.standard = exec := funext fun i => funext (execUnder_standard i)
  show runLoopWith (runCycleWith (decodeUnder Config.standard) (execUnder Config.standard)) n s = _
  rw [dispatchers]
  rfl

/-- Settles O56. -/
theorem standardConfigurationIsTheMachine : Obligations.StandardConfigurationIsTheMachine :=
  ⟨fun _ => rfl, fun _ => rfl, execUnder_standard, stepUnder_standard, runLoopUnder_standard⟩

/-! ### The effect of an instruction that completes -/

/-- The ways in which an instruction that completes can change the machine, one for each shared operation of Ops.lean, with what
the tables of Safety.lean say of such an instruction. The control signals may be any: `ControlSignalsOfEachInstruction` is about
them. -/
inductive Effect (c : Parameters) (s : State) : Instr → State → Prop
  /-- A result, and its flags. -/
  | result {i : Instr} {rd : Reg} (v : Word) (sig : Signals) (written : writtenReg i = some rd)
      (flags : ∀ t, flagSource i s t = some (readReg t rd).toInt) : Effect c s i (writeResult c rd v { s with sig := sig })
  /-- The flags of an exact difference. -/
  | compare {i : Instr} (a b : Int) (sig : Signals) (written : writtenReg i = none)
      (flags : ∀ t, flagSource i s t = some (a - b)) : Effect c s i (compareThen c a b { s with sig := sig })
  /-- PC alone. -/
  | transfer {i : Instr} (target : Word) (sig : Signals) (written : writtenReg i = none)
      (flags : ∀ t, flagSource i s t = none) : Effect c s i (setPc target { s with sig := sig })
  /-- PC and the link register. -/
  | call {i : Instr} (target : Word) (sig : Signals) (written : writtenReg i = some .r7)
      (flags : ∀ t, flagSource i s t = none) : Effect c s i (setPc target (link { s with sig := sig }))
  | trap (imm : BitVec 8) : Effect c s (.trap imm) (enterTrap c imm s)
  | rti : Effect c s .rti (returnFromTrap s)
  /-- One word of memory, where the mode may reach it. -/
  | store (rt rs : Reg) (imm : Word) (sig : Signals)
      (permitted : denied (currentMode s) (effectiveAddress rs imm s) = false) :
      Effect c s (.str rt rs imm)
        (advancePc (storeWord (effectiveAddress rs imm s) (readReg s rt) { s with sig := sig }))

section
variable {c : Parameters} {i : Instr} {s t : State}

theorem branchOn_eq_setPc (mask : BitVec 3) (imm : Word) (s : State) :
    branchOn mask imm s = setPc (branchOn mask imm s).pc s := by
  rw [branchOn_eq, setPc]

/-- Every instruction that completes has one of these effects. -/
theorem execUnder_effect (h : execUnder c i s = .next t) : Effect c s i t := by
  cases i
  case illegal3 | illegalB | illegalE => cases h
  case add | mul | sub | div | addi | and | not | or | xor | andi | sll | sra | srl | mod | const | hiconst =>
    cases h
    exact .result _ _ rfl fun _ => rfl
  case ldr rd rs imm =>
    obtain ⟨-, faults⟩ | ⟨-, completes⟩ := execLdrUnder_cases s c rd rs imm
    · cases faults.symm.trans h
    · cases completes.symm.trans h
      exact .result _ _ rfl fun _ => rfl
  case cmp | cmpu | cmpi | cmpiu =>
    cases h
    exact .compare _ _ _ rfl fun _ => rfl
  case brp | brz | brzp | brn | brnp | brnz | brnzp =>
    cases h
    rw [branchOn_eq_setPc]
    exact .transfer _ s.sig rfl fun _ => rfl
  case nop | jmpr | jmp =>
    cases h
    exact .transfer _ _ rfl fun _ => rfl
  case jsrr | jsr =>
    cases h
    exact .call _ _ rfl fun _ => rfl
  case trap imm =>
    cases h
    exact .trap imm
  case rti =>
    cases h
    exact .rti
  case str rt rs imm =>
    obtain ⟨-, faults⟩ | ⟨permitted, completes⟩ := execStr_cases s rt rs imm
    · cases faults.symm.trans h
    · cases completes.symm.trans h
      exact .store rt rs imm _ permitted

theorem exec_effect (h : exec i s = .next t) : Effect Config.standard s i t :=
  execUnder_effect ((execUnder_standard i s).trans h)

/-! ### What the effects leave unchanged -/

namespace Effect

theorem trace_eq (e : Effect c s i t) : t.trace = s.trace := by
  cases e <;> rfl

/-- Memory changes only where a store is permitted (47_load_store.md R212). -/
theorem mem_cases (e : Effect c s i t) : t.mem = s.mem ∨ ∃ ea v, storedAddress i s = some ea ∧ denied (currentMode s) ea = false ∧
    t.mem = s.mem.write ea.toNat v := by
  cases e
  case store rt rs imm sig permitted => exact .inr ⟨_, _, rfl, permitted, rfl⟩
  all_goals exact .inl rfl

theorem loadWord_eq (e : Effect c s i t) {a : Word} (ha : storedAddress i s ≠ some a) :
    loadWord t a = loadWord s a := by
  obtain kept | ⟨ea, v, stored, -, written⟩ := e.mem_cases
  · rw [loadWord, kept, loadWord]
  · have other : a ≠ ea := fun same => ha (same ▸ stored)
    rw [loadWord, written]
    exact loadWord_storeWord_other s v other

theorem mem_wf (e : Effect c s i t) (h : s.mem.wf) : t.mem.wf := by
  obtain kept | ⟨ea, v, -, -, written⟩ := e.mem_cases
  · exact kept ▸ h
  · exact written ▸ storeWord_wf s ea v h

/-- `PSR[14:3]` (10_state.md R28). -/
theorem reserved_eq (e : Effect c s i t) : t.psr.extractLsb' 3 12 = s.psr.extractLsb' 3 12 := by
  cases e
  case transfer | call | store => rfl
  case result => exact reserved_withCode _ _
  case compare => exact reserved_withCode _ _
  case trap => exact (reserved_withMode _ _).trans (reserved_withCode _ _)
  case rti => exact reserved_withMode _ _

/-- Exactly one flag stays set (10_state.md R30). -/
theorem oneFlag (hc : c.Proper) (e : Effect c s i t) (h : OneFlagSet s.psr) : OneFlagSet t.psr := by
  cases e
  case transfer | call | store => exact h
  case result => exact oneFlagSet_withCode_nzpCode hc _ _
  case compare => exact oneFlagSet_withCode_nzpCode hc _ _
  case trap =>
    rw [enterTrap_eq, OneFlagSet, codeOf_withMode]
    exact oneFlagSet_withCode_nzpCode hc _ _
  case rti =>
    rw [returnFromTrap_eq, OneFlagSet, codeOf_withMode]
    exact h

/-- No register but the one the instruction's row names (10_state.md R21). -/
theorem readReg_eq (e : Effect c s i t) {q : Reg} (hq : writtenReg i ≠ some q) : readReg t q = readReg s q := by
  have other {r : Reg} (written : writtenReg i = some r) : q ≠ r := fun same => hq (same ▸ written)
  cases e
  case compare | transfer | rti | store => rfl
  case result v sig written flags => exact RegFile.get_set_other _ _ (other written)
  case call target sig written flags => exact RegFile.get_set_other _ _ (other written)
  case trap imm => exact RegFile.get_set_other _ _ (other rfl)

/-- `SetNZP` of the value the instruction's row names, or no flag changes (10_state.md R32). -/
theorem code_eq (e : Effect Config.standard s i t) :
    (∀ n, flagSource i s t = some n → codeOf t.psr = signCode n) ∧ (flagSource i s t = none → codeOf t.psr = codeOf s.psr) := by
  cases e
  case result rd v sig written flags =>
    rw [flags]
    refine ⟨?_, nofun⟩
    rintro _ ⟨⟩
    rw [writeResult_psr, codeOf_withCode, nzpCode_eq_signCode, writeResult_readReg, if_pos rfl]
  case compare a b sig written flags =>
    rw [flags]
    refine ⟨?_, nofun⟩
    rintro _ ⟨⟩
    rw [compareThen_eq, codeOf_withCode, nzpCode_compareValue_eq_signCode]
  case transfer target sig written flags =>
    rw [flags]
    exact ⟨nofun, fun _ => rfl⟩
  case call target sig written flags =>
    rw [flags]
    exact ⟨nofun, fun _ => rfl⟩
  case trap imm =>
    refine ⟨?_, nofun⟩
    rintro _ ⟨⟩
    rw [enterTrap_eq, codeOf_withMode, codeOf_withCode, nzpCode_eq_signCode]
    rfl
  case rti => exact ⟨nofun, fun _ => codeOf_withMode _ _⟩
  case store => exact ⟨nofun, fun _ => rfl⟩

end Effect

end

/-- Settles O23, by the effect of the instruction. -/
theorem handlerFrame : Obligations.HandlerFrame := fun _ _ _ h =>
  have e := exec_effect h
  ⟨fun _ => e.readReg_eq, fun _ => e.loadWord_eq, e.reserved_eq, e.code_eq.2, e.trace_eq⟩

/-- Settles O25, by the effect of the instruction. -/
theorem flagsAfterEachInstruction : Obligations.FlagsAfterEachInstruction := fun _ _ _ h => (exec_effect h).code_eq

end Sys2Proof.Machine

/-! ## The invariant (10_state.md R39) -/

namespace Sys2Proof.Machine

/-- The invariant speaks of PSR, the signals and memory: what a cycle leaves of its handler's state has it where that state's PSR
and memory do. -/
theorem inv_finished {u : State} (p w : Word) (hreserved : u.psr.extractLsb' 3 12 = 0) (hflag : OneFlagSet u.psr)
    (hmem : u.mem.wf) : (clearSignals (emitTrace p w u)).Inv :=
  ⟨hreserved, hflag, rfl, hmem⟩

/-- A cycle keeps the invariant under every proper configuration. -/
theorem inv_of_stepUnder_next {c : Parameters} (hc : c.Proper) {s t : State} (hs : s.Inv) (h : stepUnder c s = .next t) :
    t.Inv := by
  obtain ⟨-, rfl⟩ | ⟨-, -, u, hu, rfl⟩ := stepUnder_next h
  · exact hs
  · have e := execUnder_effect hu
    exact inv_finished _ _ (e.reserved_eq.trans hs.reservedZero) (e.oneFlag hc hs.oneFlag) (e.mem_wf hs.memoryWf)

/-- Settles O58, by the effect of the instruction that the cycle runs. -/
theorem stepKeepsInvariantUnderEveryConfiguration : Obligations.StepKeepsInvariantUnderEveryConfiguration :=
  fun _ hc _ _ => inv_of_stepUnder_next hc

/-- Settles O9: the standard configuration is a proper one. -/
theorem stepKeepsInvariant : Obligations.StepKeepsInvariant := fun s _ hs h =>
  inv_of_stepUnder_next Config.standard_proper hs ((stepUnder_standard s).trans h)

/-- Settles O8. -/
theorem resetMeetsInvariant : Obligations.ResetMeetsInvariant :=
  ⟨State.reset_reserved, .inr (.inl (by decide)), State.reset_sig, Memory.wf_nil⟩

/-! ### The canonical form of memory (log 13) -/

/-- A canonical memory lists no address below its first, so such an address reads as the reset contents. -/
theorem Memory.read_of_lt_all {m : Memory} {a : Nat} (h : ∀ c ∈ m, a < c.1) : m.read a = Config.memoryReset := by
  induction m with
  | nil => rfl
  | cons c rest ih =>
    have other : c.1 ≠ a := (h c (by simp)).ne'
    rw [Memory.read, if_neg other]
    exact ih fun d hd => h d (by simp [hd])

theorem Memory.wf_cons {c : Nat × Word} {m : Memory} (h : Memory.wf (c :: m)) :
    (∀ d ∈ m, c.1 < d.1) ∧ c.2 ≠ Config.memoryReset ∧ m.wf := by
  obtain ⟨rising, cells⟩ := h
  obtain ⟨first, rest⟩ := List.pairwise_cons.1 rising
  exact ⟨first, (cells c (by simp)).2, rest, fun d hd => cells d (by simp [hd])⟩

theorem Memory.read_head (c : Nat × Word) (m : Memory) : Memory.read (c :: m) c.1 = c.2 := if_pos rfl

/-- Below the first address that `n` lists, `m` can list none: its word there would read as the reset contents. -/
theorem Memory.not_lt_all_of_read_eq {c : Nat × Word} {m n : Memory} (hm : Memory.wf (c :: m))
    (h : ∀ a : Nat, Memory.read (c :: m) a = n.read a) : ¬ ∀ d ∈ n, c.1 < d.1 := by
  intro below
  have listed : c.2 = n.read c.1 := (Memory.read_head c m).symm.trans (h c.1)
  exact (Memory.wf_cons hm).2.1 (listed.trans (Memory.read_of_lt_all below))

/-- Both list the same first cell, and what they read beyond it is the rest. -/
theorem Memory.eq_of_read_eq {m n : Memory} (hm : m.wf) (hn : n.wf) (h : ∀ a : Nat, m.read a = n.read a) : m = n := by
  induction m generalizing n with
  | nil =>
    cases n with
    | nil => rfl
    | cons d n => exact absurd (by simp) (Memory.not_lt_all_of_read_eq hn fun a => (h a).symm)
  | cons c m ih =>
    cases n with
    | nil => exact absurd (by simp) (Memory.not_lt_all_of_read_eq hm h)
    | cons d n =>
      obtain ⟨firstM, -, wfM⟩ := Memory.wf_cons hm
      obtain ⟨firstN, -, wfN⟩ := Memory.wf_cons hn
      have notBelow : ¬ c.1 < d.1 := fun lt => Memory.not_lt_all_of_read_eq hm h fun e he =>
        (List.mem_cons.1 he).elim (fun same => same ▸ lt) fun he => lt.trans (firstN e he)
      have notAbove : ¬ d.1 < c.1 := fun lt => Memory.not_lt_all_of_read_eq hn (fun a => (h a).symm) fun e he =>
        (List.mem_cons.1 he).elim (fun same => same ▸ lt) fun he => lt.trans (firstM e he)
      have address : c.1 = d.1 := by omega
      have word : c.2 = d.2 := by rw [← Memory.read_head c m, h, address, Memory.read_head]
      have rest : ∀ a, Memory.read m a = Memory.read n a := by
        intro a
        by_cases ha : c.1 = a
        · rw [Memory.read_of_lt_all (ha ▸ firstM), Memory.read_of_lt_all (ha ▸ address ▸ firstN)]
        · have beyond := h a
          rwa [Memory.read, if_neg ha, Memory.read, if_neg (address ▸ ha)] at beyond
      rw [Prod.ext address word, ih wfM wfN rest]

/-- Settles O10. -/
theorem canonicalMemoriesReadingAlikeAreEqual : Obligations.CanonicalMemoriesReadingAlikeAreEqual :=
  fun _ _ => Memory.eq_of_read_eq

end Sys2Proof.Machine

/-! ## The cycle (40_sequencer.md R122, R131, R133; 60_exceptions.md R241, R243) -/

namespace Sys2Proof.Machine

section
variable {s t : State} {f : Fault}

/-- A cycle that is neither halted nor denied is the decoded instruction's, finished. -/
theorem step_of_fetchAllowed (hrun : MayRun s) (hfetch : FetchAllowed s) :
    step s = finishCycle s.pc (fetch s) (exec (decode (fetch s)) s) := by
  obtain ⟨halts, -⟩ | ⟨-, denies, -⟩ | ⟨-, -, e⟩ := step_cases s
  · exact absurd (hrun.symm.trans halts) nofun
  · exact absurd (hfetch.symm.trans denies) nofun
  · exact e

theorem step_next_of_exec_next (hrun : MayRun s) (hfetch : FetchAllowed s) (h : exec (decode (fetch s)) s = .next t) :
    step s = .next (clearSignals (emitTrace s.pc (fetch s) t)) := by
  rw [step_of_fetchAllowed hrun hfetch, h, finishCycle]

theorem step_fault_of_exec_fault (hrun : MayRun s) (hfetch : FetchAllowed s) (h : exec (decode (fetch s)) s = .fault f) :
    step s = .fault f := by
  rw [step_of_fetchAllowed hrun hfetch, h, finishCycle]

/-- What a cycle that is run and answers a next state did. -/
theorem exec_next_of_step_next (hrun : MayRun s) (h : step s = .next t) :
    ∃ u, exec (decode (fetch s)) s = .next u ∧ t = clearSignals (emitTrace s.pc (fetch s) u) := by
  obtain ⟨halts, -⟩ | ⟨-, -, ran⟩ := step_next h
  · exact absurd (hrun.symm.trans halts) nofun
  · exact ran

theorem step_of_halted (h : s.pc = 0x80FF) : step s = .next s := by
  obtain ⟨-, e⟩ | ⟨runs, -⟩ | ⟨runs, -⟩ := step_cases s
  · exact e
  · exact absurd h ((mayRun_iff s).1 runs)
  · exact absurd h ((mayRun_iff s).1 runs)

end

/-- Settles O11. -/
theorem stepRunsDecodedInstruction : Obligations.StepRunsDecodedInstruction := by
  rintro s _ hrun hfetch rfl
  exact ⟨fun _ => step_next_of_exec_next hrun hfetch, fun _ => step_fault_of_exec_fault hrun hfetch⟩

/-- A next state is reported as halt-pending where PC is the sentinel, and as continue elsewhere (40_sequencer.md R131). -/
theorem outcomeOf_next (t : State) :
    (t.pc = 0x80FF → outcomeOf (.next t) = .haltPending) ∧ (t.pc ≠ 0x80FF → outcomeOf (.next t) = .continue) :=
  ⟨fun h => if_pos ((halted_iff t).2 h), fun h => if_neg (mt (halted_iff t).1 h)⟩

/-- Settles O12. -/
theorem haltedMachineIsFrozen : Obligations.HaltedMachineIsFrozen := fun s h =>
  ⟨step_of_halted h, step_of_halted h ▸ (outcomeOf_next s).1 h⟩

/-- Settles O16. -/
theorem failedCycleChangesNothing : Obligations.FailedCycleChangesNothing := by
  intro s f h
  rw [afterCycle_of_step_fault h, h]
  exact ⟨rfl, rfl, rfl, rfl, rfl, rfl, rfl⟩

/-! ### Nothing is refused (00_scope.md R10) -/

/-- LDR and STR complete or fault by their check; every other instruction completes everywhere or faults everywhere. -/
theorem exec_completes_or_faults (i : Instr) (s : State) : (∃ t, exec i s = .next t) ∨ ∃ f, exec i s = .fault f := by
  by_cases access : ∃ r rs imm, i = .ldr r rs imm ∨ i = .str r rs imm
  · obtain ⟨r, rs, imm, hi⟩ := access
    obtain ⟨-, faults⟩ | ⟨-, completes⟩ := exec_access_cases (s := s) ⟨r, hi⟩
    · exact .inr ⟨_, faults⟩
    · exact .inl completes
  · have hno : ∀ r rs imm, i ≠ .ldr r rs imm ∧ i ≠ .str r rs imm := by simpa only [not_exists, not_or] using access
    obtain always | ⟨f, never⟩ := exec_completes_or_faults_of_no_access hno
    · exact .inl (always s)
    · exact .inr ⟨f, never s⟩

theorem step_completes_or_faults (s : State) : (∃ t, step s = .next t) ∨ ∃ f, step s = .fault f := by
  obtain ⟨-, e⟩ | ⟨-, -, e⟩ | ⟨-, -, e⟩ := step_cases s
  · exact .inl ⟨_, e⟩
  · exact .inr ⟨_, e⟩
  · obtain ⟨t, h⟩ | ⟨f, h⟩ := exec_completes_or_faults (decode (fetch s)) s
    · exact .inl ⟨_, by rw [e, h, finishCycle]⟩
    · exact .inr ⟨_, by rw [e, h, finishCycle]⟩

/-- Settles O17. -/
theorem everyStepCompletesOrIsFatal : Obligations.EveryStepCompletesOrIsFatal := by
  refine ⟨fun i s r refused => ?_, step_completes_or_faults⟩
  obtain ⟨t, h⟩ | ⟨f, h⟩ := exec_completes_or_faults i s
  · cases h.symm.trans refused
  · cases h.symm.trans refused

/-- Settles O54: an answer is a next state or a fault, and each has its own outcome. -/
theorem outcomeOfEachCycle : Obligations.OutcomeOfEachCycle := by
  intro s
  refine ⟨fun t _ h => h ▸ outcomeOf_next t, fun f h => by rw [h, outcomeOf], fun r => ?_⟩
  obtain ⟨t, h⟩ | ⟨f, h⟩ := step_completes_or_faults s
  · rw [h, outcomeOf]
    split <;> nofun
  · rw [h, outcomeOf]
    nofun

/-! ### Unrecognized words (60_exceptions.md R243) -/

/-- Settles O45: the word is the opcode over the twelve bits below it. -/
theorem unassignedOpcodesAreFatal : Obligations.UnassignedOpcodesAreFatal := by
  have word (op : BitVec 4) (low : BitVec 12) : (op ++ low).toNat = op.toNat * 4096 + low.toNat := by
    rw [BitVec.toNat_append, ← Nat.shiftLeft_add_eq_or_of_lt low.isLt, Nat.shiftLeft_eq]
  intro s low
  exact ⟨⟨0x3#4 ++ low, rfl, word _ _⟩, ⟨0xB#4 ++ low, rfl, word _ _⟩, ⟨0xE#4 ++ low, rfl, word _ _⟩⟩

section
variable {c : Parameters} {w : Word}

/-- A word whose opcode no class has is fatal under every proper configuration, and the fault carries the word. -/
theorem execUnder_decodeUnder_of_classOf_none (hc : c.Proper) (h : c.classOf (field 12 4 w) = none) (s : State) :
    execUnder c (decodeUnder c w) s = .fault (.illegalOpcode w) := by
  have whole : unrecognized (field 12 4 w) (field 0 12 w) = .fault (.illegalOpcode w) := by
    rw [unrecognized, raiseFatal, field_append_field]
  have unassigned : decodeUnder c w = decodeUnassigned c w := by simp only [decodeUnder, h]
  rw [unassigned]
  obtain ⟨opcode, e⟩ | ⟨opcode, e⟩ | ⟨opcode, e⟩ := decodeUnassigned_cases hc h
  all_goals
    rw [e, ← whole, opcode]
    rfl

/-- No word whose opcode a class has is reported as unrecognized. -/
theorem execUnder_decodeUnder_of_classOf_some {k : OpClass} (h : c.classOf (field 12 4 w) = some k) (s : State) (v : Word) :
    execUnder c (decodeUnder c w) s ≠ .fault (.illegalOpcode v) := by
  cases k <;> simp only [decodeUnder, h]
  case load =>
    obtain ⟨-, e⟩ | ⟨-, e⟩ := execLdrUnder_cases s c (regField 9 w) (regField 6 w) (sext 6 (field 0 6 w)) <;>
      exact fun reported => nomatch e.symm.trans reported
  case store =>
    obtain ⟨-, e⟩ | ⟨-, e⟩ := execStr_cases s (regField 9 w) (regField 6 w) (sext 6 (field 0 6 w)) <;>
      exact fun reported => nomatch e.symm.trans reported
  case rti | const | hiConst | trap => nofun
  case branch | comparative | jsr | shiftMod | jump =>
    simp only [decodeBranch, decodeComparative, decodeJsr, decodeShiftMod, decodeJump]
    split <;> nofun
  case arithmetic | logical =>
    simp only [decodeArithmetic, decodeLogical]
    split
    next => nofun
    next => split <;> nofun

end

/-- The cycle under any proper configuration: fatal for its opcode exactly when no class has it. -/
theorem stepUnder_unrecognized {c : Parameters} (hc : c.Proper) {s : State} (hrun : MayRun s) (hfetch : FetchAllowed s) :
    ((∀ k, c.opcodeOf k ≠ field 12 4 (fetch s)) → stepUnder c s = .fault (.illegalOpcode (fetch s))) ∧
    ((∃ k, c.opcodeOf k = field 12 4 (fetch s)) → ∀ w, stepUnder c s ≠ .fault (.illegalOpcode w)) := by
  have runs : stepUnder c s = finishCycle s.pc (fetch s) (execUnder c (decodeUnder c (fetch s)) s) := by
    obtain ⟨halts, -⟩ | ⟨-, denies, -⟩ | ⟨-, -, e⟩ := stepUnder_cases s c
    · exact absurd (hrun.symm.trans halts) nofun
    · exact absurd (hfetch.symm.trans denies) nofun
    · exact e
  rw [runs]
  refine ⟨fun none => ?_, fun ⟨k, hk⟩ w => ?_⟩
  · rw [execUnder_decodeUnder_of_classOf_none hc (Parameters.classOf_eq_none.2 none), finishCycle]
  · rw [Ne, finishCycle_fault]
    exact execUnder_decodeUnder_of_classOf_some (hk ▸ Parameters.classOf_opcodeOf hc k) s w

/-- The top four bits as a number. -/
theorem toNat_field_opcode (w : Word) : (field 12 4 w).toNat = w.toNat / 4096 := by
  have bound : w.toNat < 65536 := w.isLt
  rw [field, BitVec.extractLsb'_toNat, Nat.shiftRight_eq_div_pow]
  omega

/-- D1, D19: the standard configuration leaves 0x3, 0xB and 0xE to no class. -/
theorem unassigned_iff_toNat (w : Word) :
    w.toNat / 4096 ∈ [0x3, 0xB, 0xE] ↔ ∀ k, Config.standard.opcodeOf k ≠ field 12 4 w := by
  rw [← Parameters.classOf_eq_none, Config.standard_classOf, Config.classOf_eq_none, ← toNat_field_opcode]
  generalize field 12 4 w = op
  revert op
  decide

/-- Settles O15: the standard configuration is a proper one. -/
theorem unrecognizedWordsAreThreeOpcodes : Obligations.UnrecognizedWordsAreThreeOpcodes := by
  refine ⟨fun s hrun hfetch => ?_, fun c hc s hrun hfetch => stepUnder_unrecognized hc hrun hfetch⟩
  obtain ⟨fatal, recognized⟩ := stepUnder_unrecognized Config.standard_proper hrun hfetch
  rw [stepUnder_standard] at fatal recognized
  refine ⟨fun h => fatal ((unassigned_iff_toNat _).1 h), fun h => recognized ?_⟩
  simpa only [not_forall, not_not] using mt (unassigned_iff_toNat _).2 h

end Sys2Proof.Machine

/-! ## Where an instruction leaves PC (10_state.md R25; 44_branch.md R180) -/

namespace Sys2Proof.Machine

section
variable {s t : State}

/-! ### The mask test -/

/-- A mask meets a code exactly where both have a bit set (44_branch.md R180). -/
theorem mask_meets_iff : ∀ mask code : BitVec 3, mask &&& code ≠ 0 ↔
    (mask.getLsbD 2 && code.getLsbD 2 || mask.getLsbD 1 && code.getLsbD 1 || mask.getLsbD 0 && code.getLsbD 0) = true := by
  decide

/-- The flags that a mask names: bit 2 is N, bit 1 is Z, bit 0 is P (D7). -/
def taken (mask : BitVec 3) (psr : Word) : Bool :=
  mask.getLsbD 2 && psr.getLsbD 2 || mask.getLsbD 1 && psr.getLsbD 1 || mask.getLsbD 0 && psr.getLsbD 0

@[simp] theorem taken_p (psr : Word) : taken Config.codeP psr = psr.getLsbD 0 := by
  simp [taken, Config.codeP]

@[simp] theorem taken_z (psr : Word) : taken Config.codeZ psr = psr.getLsbD 1 := by
  simp [taken, Config.codeZ]

@[simp] theorem taken_zp (psr : Word) : taken (Config.codeZ ||| Config.codeP) psr = (psr.getLsbD 1 || psr.getLsbD 0) := by
  simp [taken, Config.codeZ, Config.codeP]

@[simp] theorem taken_n (psr : Word) : taken Config.codeN psr = psr.getLsbD 2 := by
  simp [taken, Config.codeN]

@[simp] theorem taken_np (psr : Word) : taken (Config.codeN ||| Config.codeP) psr = (psr.getLsbD 2 || psr.getLsbD 0) := by
  simp [taken, Config.codeN, Config.codeP]

@[simp] theorem taken_nz (psr : Word) : taken (Config.codeN ||| Config.codeZ) psr = (psr.getLsbD 2 || psr.getLsbD 1) := by
  simp [taken, Config.codeN, Config.codeZ]

@[simp] theorem taken_nzp (psr : Word) : taken (Config.codeN ||| Config.codeZ ||| Config.codeP) psr =
    (psr.getLsbD 2 || psr.getLsbD 1 || psr.getLsbD 0) := by
  simp [taken, Config.codeN, Config.codeZ, Config.codeP]

theorem mask_meets_codeOf_iff (mask : BitVec 3) (psr : Word) : mask &&& codeOf psr ≠ 0 ↔ taken mask psr = true := by
  rw [mask_meets_iff]
  simp [taken, codeOf]

theorem branchOn_pc (mask : BitVec 3) (imm : Word) (s : State) :
    (branchOn mask imm s).pc = if taken mask s.psr then s.pc + 1 + imm else s.pc + 1 := by
  simp only [branchOn_eq, mask_meets_codeOf_iff]

/-- A branch changes PC alone. -/
theorem branchOn_goesTo (mask : BitVec 3) (imm : Word) (s : State) :
    GoesTo (branchOn mask imm s).pc s (branchOn mask imm s) := by
  rw [branchOn_eq]
  exact ⟨rfl, fun _ => rfl, rfl, fun _ => rfl, rfl⟩

end

/-- Settles O36: each branch's mask, and the flags it names. -/
theorem branchResults : Obligations.BranchResults := by
  intro s imm
  have branch (mask : BitVec 3) {named : Bool} (h : taken mask s.psr = named) :
      ∃ t, (.next (branchOn mask imm s) : Answer) = .next t ∧ GoesTo (if named then s.pc + 1 + imm else s.pc + 1) s t :=
    ⟨_, rfl, h ▸ branchOn_pc mask imm s ▸ branchOn_goesTo mask imm s⟩
  exact ⟨branch _ (taken_p _), branch _ (taken_z _), branch _ (taken_zp _), branch _ (taken_n _), branch _ (taken_np _),
    branch _ (taken_nz _), branch _ (taken_nzp _)⟩

/-- Settles O37. -/
theorem nopAndJumpResults : Obligations.NopAndJumpResults := fun _ _ _ =>
  ⟨⟨_, rfl, rfl, fun _ => rfl, rfl, fun _ => rfl, rfl⟩, ⟨_, rfl, rfl, fun _ => rfl, rfl, fun _ => rfl, rfl⟩,
    ⟨_, rfl, rfl, fun _ => rfl, rfl, fun _ => rfl, rfl⟩⟩

/-! ### JSR and JSRR -/

theorem readReg_link (s : State) (q : Reg) : readReg (link s) q = if q = .r7 then s.pc + 1 else readReg s q :=
  RegFile.get_set s.regs .r7 q (s.pc + 1)

/-- JSRR's target under either value of `JSRR_LINK_FIRST` (45_jump_jsr.md R192; D12). -/
theorem jsrrTarget_eq (c : Parameters) (rs : Reg) (s : State) :
    jsrrTarget c rs s = if c.jsrrLinkFirst = true ∧ rs = .r7 then s.pc + 1 else readReg s rs := by
  unfold jsrrTarget
  cases c.jsrrLinkFirst
  case false => simp
  case true => simp [readReg_link]

/-- R7 is linked first in the standard configuration. -/
theorem jsrrTarget_standard (rs : Reg) (s : State) :
    jsrrTarget Config.standard rs s = if rs = .r7 then s.pc + 1 else readReg s rs := by
  simp only [jsrrTarget_eq, Config.standard_jsrrLinkFirst, Config.jsrrLinkFirst, true_and]

/-- JSR's field is not sign-extended in the standard configuration (45_jump_jsr.md R193; D11). -/
theorem jsrTarget_standard (imm : BitVec 11) (s : State) :
    jsrTarget Config.standard imm s = (s.pc &&& (0x8000 : Word)) ||| ((imm.setWidth 16 : Word) <<< 4) := rfl

section
variable {i : Instr} {s t : State}

/-- PC after each instruction: a target for a branch, a jump, a call, a trap and its return; PC + 1 for all others. -/
theorem exec_next_pc (h : exec i s = .next t) : t.pc = nextPc i s := by
  cases i
  case illegal3 | illegalB | illegalE => cases h
  case brp | brz | brzp | brn | brnp | brnz | brnzp =>
    cases h
    simp only [branchOn_pc, Config.standard_codeN, Config.standard_codeZ, Config.standard_codeP, taken_p, taken_z, taken_zp,
      taken_n, taken_np, taken_nz, taken_nzp]
    rfl
  case jsrr rs =>
    cases h
    exact jsrrTarget_standard rs s
  case ldr rd rs imm =>
    obtain ⟨-, faults⟩ | ⟨-, completes⟩ := execLdr_cases s rd rs imm
    · cases faults.symm.trans h
    · cases completes.symm.trans h
      rfl
  case str rt rs imm =>
    obtain ⟨-, faults⟩ | ⟨-, completes⟩ := execStr_cases s rt rs imm
    · cases faults.symm.trans h
    · cases completes.symm.trans h
      rfl
  all_goals
    cases h
    rfl

end

/-- Settles O24. -/
theorem pcAfterEachInstruction : Obligations.PcAfterEachInstruction :=
  ⟨fun _ _ _ => exec_next_pc, fun s f h => by rw [afterCycle_of_step_fault h, clearSignals_pc]⟩

/-! ## The control signals (40_sequencer.md R130) -/

section
variable {i : Instr} {s t : State}

/-- The signals after a handler that began with none driven: the fields it selects, the register and the code it writes, the
address and the word of a data access. -/
theorem exec_next_sig (hs : s.sig = Signals.zero) (h : exec i s = .next t) : t.sig = drivenSignals i s t := by
  cases i
  case illegal3 | illegalB | illegalE => cases h
  case brp | brz | brzp | brn | brnp | brnz | brnzp =>
    cases h
    rw [branchOn_eq]
    exact hs
  case ldr rd rs imm =>
    obtain ⟨-, faults⟩ | ⟨-, completes⟩ := execLdr_cases s rd rs imm
    · cases faults.symm.trans h
    · cases completes.symm.trans h
      simp [writeResult, drivenSignals, hs]
  case str rt rs imm =>
    obtain ⟨-, faults⟩ | ⟨-, completes⟩ := execStr_cases s rt rs imm
    · cases faults.symm.trans h
    · cases completes.symm.trans h
      simp [drivenSignals, hs]
  case add | mul | sub | div | addi | and | not | or | xor | andi | sll | sra | srl | mod | const | hiconst =>
    cases h
    simp [writeResult, drivenSignals, hs]
  case cmp | cmpu | cmpi | cmpiu =>
    cases h
    simp [compareThen, drivenSignals, hs]
  case trap imm =>
    cases h
    simp [enterTrap, drivenSignals, hs]
    rfl
  case jsrr | jsr =>
    cases h
    simp [link, drivenSignals, hs]
    rfl
  case rti =>
    cases h
    simp [returnFromTrap, drivenSignals, hs]
  case nop | jmpr | jmp =>
    cases h
    simp [drivenSignals, hs]

end

/-- Settles O27. -/
theorem controlSignalsOfEachInstruction : Obligations.ControlSignalsOfEachInstruction := fun _ _ _ => exec_next_sig

end Sys2Proof.Machine

/-! ## Protection (20_memory.md R57, R58, R60, R66) -/

namespace Sys2Proof.Machine

/-- Settles O21: a cycle stores to a permitted address or nowhere. -/
theorem deniedMemoryIsNeverWritten : Obligations.DeniedMemoryIsNeverWritten := by
  intro s t h a ha
  obtain ⟨-, rfl⟩ | ⟨-, -, u, hu, rfl⟩ := step_next h
  · rfl
  · obtain kept | ⟨ea, v, -, permitted, written⟩ := (exec_effect hu).mem_cases
    · exact congrArg (Memory.read · a.toNat) kept
    · have other : a ≠ ea := by
        rintro rfl
        exact nomatch ha.symm.trans permitted
      rw [clearSignals_loadWord, emitTrace_loadWord, loadWord, written]
      exact loadWord_storeWord_other s v other

/-! ### Another memory under the same instruction -/

/-- An answer with another memory in its next state. -/
def Answer.withMem (m : Memory) : Answer → Answer
  | .next t => .next { t with mem := m }
  | .fault f => .fault f
  | .refused r => .refused r

section
variable {i : Instr} {s : State} {m : Memory}

/-- An instruction that makes no data access does not see memory. -/
theorem exec_withMem_of_no_access (s : State) (m : Memory) (hno : ∀ r rs imm, i ≠ .ldr r rs imm ∧ i ≠ .str r rs imm) :
    exec i { s with mem := m } = Answer.withMem m (exec i s) := by
  cases i
  case ldr rd rs imm => exact absurd rfl (hno rd rs imm).1
  case str rt rs imm => exact absurd rfl (hno rt rs imm).2
  case brp | brz | brzp | brn | brnp | brnz | brnzp =>
    show Host.Outcome.next (branchOn _ _ _) = .next _
    rw [branchOn_eq, branchOn_eq]
  all_goals rfl

theorem storedAddress_of_no_access (s : State) (hno : ∀ r rs imm, i ≠ .ldr r rs imm ∧ i ≠ .str r rs imm) :
    storedAddress i s = none := by
  unfold storedAddress
  split
  next rt rs imm => exact absurd rfl (hno rt rs imm).2
  next => rfl

/-- Two memories that agree where the mode may go. -/
def AgreeWherePermitted (mode : Mode) (m n : Memory) : Prop := ∀ a : Word, denied mode a = false → m.read a.toNat = n.read a.toNat

/-- Two answers that differ in memory alone: alike where the mode may go, and elsewhere the second still as `m`. -/
inductive AlikeButForDenied (mode : Mode) (m : Memory) : Answer → Answer → Prop
  | fault (f : Fault) : AlikeButForDenied mode m (.fault f) (.fault f)
  | next (t : State) (n : Memory) (permitted : AgreeWherePermitted mode n t.mem)
      (kept : ∀ a : Word, denied mode a = true → n.read a.toNat = m.read a.toNat) :
      AlikeButForDenied mode m (.next t) (.next { t with mem := n })

theorem AlikeButForDenied.finishCycle {mode : Mode} {a b : Answer} (h : AlikeButForDenied mode m a b) (p w : Word) :
    AlikeButForDenied mode m (finishCycle p w a) (finishCycle p w b) := by
  cases h with
  | fault f => exact .fault f
  | next t n permitted kept => exact .next (clearSignals (emitTrace p w t)) n permitted kept

theorem ldr_alikeButForDenied (rd rs : Reg) (imm : Word) (hm : AgreeWherePermitted (currentMode s) m s.mem) :
    AlikeButForDenied (currentMode s) m (execLdr rd rs imm s) (execLdr rd rs imm { s with mem := m }) := by
  have check := execLdr_cases { s with mem := m } rd rs imm
  obtain ⟨denies, e⟩ | ⟨permitted, e⟩ := execLdr_cases s rd rs imm
  · obtain ⟨-, e'⟩ | ⟨permitted, -⟩ := check
    · rw [e, e']
      exact .fault _
    · exact nomatch denies.symm.trans permitted
  · obtain ⟨denies, -⟩ | ⟨-, e'⟩ := check
    · exact nomatch permitted.symm.trans denies
    · have word : loadWord { s with mem := m } (effectiveAddress rs imm s) = loadWord s (effectiveAddress rs imm s) :=
        hm _ permitted
      have address : effectiveAddress rs imm { s with mem := m } = effectiveAddress rs imm s := rfl
      rw [e, e', address, word]
      exact .next _ m hm fun _ _ => rfl

theorem str_alikeButForDenied (rt rs : Reg) (imm : Word) (hm : AgreeWherePermitted (currentMode s) m s.mem) :
    AlikeButForDenied (currentMode s) m (execStr rt rs imm s) (execStr rt rs imm { s with mem := m }) := by
  have check := execStr_cases { s with mem := m } rt rs imm
  obtain ⟨denies, e⟩ | ⟨permitted, e⟩ := execStr_cases s rt rs imm
  · obtain ⟨-, e'⟩ | ⟨permitted, -⟩ := check
    · rw [e, e']
      exact .fault _
    · exact nomatch denies.symm.trans permitted
  · obtain ⟨denies, -⟩ | ⟨-, e'⟩ := check
    · exact nomatch permitted.symm.trans denies
    · rw [e, e']
      refine .next _ (m.write (effectiveAddress rs imm s).toNat (readReg s rt)) (fun a ha => ?_) fun a ha => ?_
      · show _ = Memory.read (s.mem.write (effectiveAddress rs imm s).toNat (readReg s rt)) a.toNat
        rw [Memory.read_write, Memory.read_write, hm a ha]
      · refine Memory.read_write_other _ _ _ _ fun same => ?_
        obtain rfl := BitVec.eq_of_toNat_eq same
        exact nomatch ha.symm.trans permitted

/-- What every instruction does with two memories that agree where the mode may go. -/
theorem exec_alikeButForDenied (i : Instr) (hm : AgreeWherePermitted (currentMode s) m s.mem) :
    AlikeButForDenied (currentMode s) m (exec i s) (exec i { s with mem := m }) := by
  by_cases access : ∃ r rs imm, i = .ldr r rs imm ∨ i = .str r rs imm
  · obtain ⟨r, rs, imm, rfl | rfl⟩ := access
    · exact ldr_alikeButForDenied r rs imm hm
    · exact str_alikeButForDenied r rs imm hm
  · have hno : ∀ r rs imm, i ≠ .ldr r rs imm ∧ i ≠ .str r rs imm := by simpa only [not_exists, not_or] using access
    rw [exec_withMem_of_no_access s m hno]
    obtain ⟨t, e⟩ | ⟨f, e⟩ := exec_completes_or_faults i s
    · have kept : t.mem = s.mem := (exec_effect e).mem_cases.resolve_right fun ⟨_, _, stored, _⟩ =>
        nomatch (storedAddress_of_no_access s hno).symm.trans stored
      rw [e]
      exact .next t m (kept ▸ hm) fun _ _ => rfl
    · rw [e]
      exact .fault f

/-- The cycle of two memories that agree where the mode may go: the fetch, where permitted, reads the same word. -/
theorem step_alikeButForDenied (hm : AgreeWherePermitted (currentMode s) m s.mem) :
    AlikeButForDenied (currentMode s) m (step s) (step { s with mem := m }) := by
  obtain ⟨halts, e⟩ | ⟨runs, denies, e⟩ | ⟨runs, permitted, e⟩ := step_cases s
  · have e' : step { s with mem := m } = .next { s with mem := m } := step_of_halted ((halted_iff s).1 halts)
    rw [e, e']
    exact .next s m hm fun _ _ => rfl
  · have e' : step { s with mem := m } = .fault (.fetchPermission s.pc) :=
      step_of_fetchDenied (s := { s with mem := m }) runs denies
    rw [e, e']
    exact .fault _
  · have word : fetch { s with mem := m } = fetch s := hm s.pc permitted
    have e' := step_of_fetchAllowed (s := { s with mem := m }) runs permitted
    rw [e, e', word]
    exact (exec_alikeButForDenied _ hm).finishCycle s.pc (fetch s)

end

/-- Settles O22: the two answers are alike but for denied memory, which stays as it was. -/
theorem deniedMemoryIsNeverRead : Obligations.DeniedMemoryIsNeverRead := by
  intro s m hm
  have alike := step_alikeButForDenied (s := s) (m := m) hm
  constructor
  · intro f h
    rw [h] at alike
    generalize step { s with mem := m } = b at alike ⊢
    cases alike
    rfl
  · intro t h
    rw [h] at alike
    generalize step { s with mem := m } = b at alike ⊢
    cases alike with
    | next _ n agree kept => exact ⟨_, rfl, rfl, rfl, rfl, rfl, rfl, fun a => ⟨agree a, kept a⟩⟩

end Sys2Proof.Machine

/-! ## Registers an instruction does not read (10_state.md R21) -/

namespace Sys2Proof.Machine

theorem RegFile.set_set_same (f : RegFile) (r : Reg) (v w : Word) : (f.set r v).set r w = f.set r w := by
  cases r <;> rfl

theorem RegFile.set_comm (f : RegFile) {r q : Reg} (v w : Word) (h : r ≠ q) :
    (f.set q v).set r w = (f.set r w).set q v := by
  refine RegFile.ext_get _ _ fun p => ?_
  by_cases hr : p = r
  · subst hr
    rw [get_set_same, get_set_other _ _ h, get_set_same]
  · by_cases hq : p = q
    · subst hq
      rw [get_set_other _ _ hr, get_set_same, get_set_same]
    · rw [get_set_other _ _ hr, get_set_other _ _ hq, get_set_other _ _ hq, get_set_other _ _ hr]

/-- The state with another value in a register. -/
def State.withReg (q : Reg) (v : Word) (s : State) : State := { s with regs := s.regs.set q v }

/-- The next state with another value in `q`, but where the instruction wrote `q` itself. -/
def Answer.withReg (written : Option Reg) (q : Reg) (v : Word) : Answer → Answer
  | .next t => .next (if written = some q then t else t.withReg q v)
  | .fault f => .fault f
  | .refused r => .refused r

section
variable {i : Instr} {s : State} {q : Reg} {v : Word}

theorem readReg_withReg_of_ne {r : Reg} (h : q ≠ r) : readReg (s.withReg q v) r = readReg s r :=
  RegFile.get_set_other _ _ h.symm

theorem set_withReg (r : Reg) (w : Word) :
    (s.withReg q v).regs.set r w = if some r = some q then s.regs.set r w else (s.regs.set r w).set q v := by
  split
  next same => cases same; exact RegFile.set_set_same _ _ _ _
  next other => exact RegFile.set_comm _ _ _ fun same => other (congrArg some same)

/-- A result written over another value of `q`. -/
theorem writeResult_withReg (c : Parameters) (rd : Reg) (w : Word) (s : State) :
    (.next (writeResult c rd w (s.withReg q v)) : Answer) = Answer.withReg (some rd) q v (.next (writeResult c rd w s)) := by
  rw [writeResult_eq, set_withReg, Answer.withReg]
  split <;> rfl

theorem link_withReg (target : Word) (s : State) :
    (.next (setPc target (link (s.withReg q v))) : Answer) = Answer.withReg (some .r7) q v (.next (setPc target (link s))) := by
  rw [link_eq, set_withReg, Answer.withReg]
  split <;> rfl

theorem enterTrap_withReg (c : Parameters) (imm : BitVec 8) (s : State) :
    (.next (enterTrap c imm (s.withReg q v)) : Answer) = Answer.withReg (some .r7) q v (.next (enterTrap c imm s)) := by
  rw [enterTrap_eq, set_withReg, Answer.withReg]
  split <;> rfl

theorem selectRs_withReg (r : Reg) (s : State) : selectRs r (s.withReg q v) = (selectRs r s).withReg q v := rfl
theorem selectRt_withReg (r : Reg) (s : State) : selectRt r (s.withReg q v) = (selectRt r s).withReg q v := rfl

theorem effectiveAddress_withReg {rs : Reg} (imm : Word) (h : q ≠ rs) :
    effectiveAddress rs imm (s.withReg q v) = effectiveAddress rs imm s := by
  rw [effectiveAddress, readReg_withReg_of_ne h, effectiveAddress]

theorem jsrrTarget_withReg {rs : Reg} (h : q ≠ rs) :
    jsrrTarget Config.standard rs (s.withReg q v) = jsrrTarget Config.standard rs s := by
  rw [jsrrTarget_standard, jsrrTarget_standard, readReg_withReg_of_ne h]
  rfl

theorem execLdr_withReg (rd : Reg) {rs : Reg} (imm : Word) (h : q ≠ rs) :
    execLdr rd rs imm (s.withReg q v) = Answer.withReg (some rd) q v (execLdr rd rs imm s) := by
  have check : currentMode (s.withReg q v) = currentMode s := rfl
  simp only [execLdr, execLdrUnder, effectiveAddress_withReg imm h, check]
  split
  next => rfl
  next => exact writeResult_withReg _ _ _ (driveLoad _ _ (selectRs rs s))

theorem execStr_withReg {rt rs : Reg} (imm : Word) (hs : q ≠ rs) (ht : q ≠ rt) :
    execStr rt rs imm (s.withReg q v) = Answer.withReg none q v (execStr rt rs imm s) := by
  have check : currentMode (s.withReg q v) = currentMode s := rfl
  simp only [execStr, effectiveAddress_withReg imm hs, readReg_withReg_of_ne ht, check]
  split <;> rfl

/-- Any value in a register that the instruction does not read is carried along, or overwritten. -/
theorem exec_withReg (hq : q ∉ readRegs i) : exec i (s.withReg q v) = Answer.withReg (writtenReg i) q v (exec i s) := by
  cases i
  case add | mul | sub | div | and | or | xor | mod =>
    obtain ⟨hs, ht⟩ := not_or.1 (mt List.mem_pair.2 hq)
    show Host.Outcome.next (writeResult _ _ _ _) = _
    rw [readReg_withReg_of_ne hs, readReg_withReg_of_ne ht, selectRs_withReg, selectRt_withReg]
    exact writeResult_withReg _ _ _ _
  case addi | not | andi | sll | sra | srl =>
    have hs := mt List.mem_singleton.2 hq
    show Host.Outcome.next (writeResult _ _ _ _) = _
    rw [readReg_withReg_of_ne hs, selectRs_withReg]
    exact writeResult_withReg _ _ _ _
  case hiconst =>
    have hs := mt List.mem_singleton.2 hq
    show Host.Outcome.next (writeResult _ _ _ _) = _
    rw [readReg_withReg_of_ne hs]
    exact writeResult_withReg _ _ _ s
  case const rd imm => exact writeResult_withReg _ _ _ s
  case cmp | cmpu =>
    obtain ⟨hs, ht⟩ := not_or.1 (mt List.mem_pair.2 hq)
    show Host.Outcome.next (compareThen _ _ _ _) = _
    rw [readReg_withReg_of_ne hs, readReg_withReg_of_ne ht]
    rfl
  case cmpi | cmpiu =>
    have hs := mt List.mem_singleton.2 hq
    show Host.Outcome.next (compareThen _ _ _ _) = _
    rw [readReg_withReg_of_ne hs]
    rfl
  case brp | brz | brzp | brn | brnp | brnz | brnzp =>
    show Host.Outcome.next (branchOn _ _ _) = .next _
    rw [branchOn_eq, branchOn_eq]
    rfl
  case jmpr =>
    have hs := mt List.mem_singleton.2 hq
    show Host.Outcome.next (setPc _ _) = _
    rw [readReg_withReg_of_ne hs]
    rfl
  case rti =>
    have hs := mt List.mem_singleton.2 hq
    show Host.Outcome.next (returnFromTrap _) = _
    rw [returnFromTrap_eq, readReg_withReg_of_ne hs]
    rfl
  case jsrr rs =>
    have hs := mt List.mem_singleton.2 hq
    show Host.Outcome.next (setPc _ (link _)) = _
    rw [jsrrTarget_withReg hs]
    exact link_withReg _ (selectRs rs s)
  case jsr imm => exact link_withReg _ s
  case trap imm => exact enterTrap_withReg _ imm s
  case ldr rd rs imm => exact execLdr_withReg rd imm (mt List.mem_singleton.2 hq)
  case str rt rs imm =>
    obtain ⟨hs, ht⟩ := not_or.1 (mt List.mem_pair.2 hq)
    exact execStr_withReg imm hs ht
  case nop | jmp | illegal3 | illegalB | illegalE => rfl

end

/-- Settles O26: the other value is carried through the instruction. -/
theorem unreadRegistersDoNotMatter : Obligations.UnreadRegistersDoNotMatter := by
  intro i s q v hq
  have carried := exec_withReg (s := s) (v := v) hq
  exact ⟨fun f h => carried.trans (congrArg _ h), fun t h => carried.trans (congrArg _ h)⟩

end Sys2Proof.Machine

/-! ## The results of the computing instructions -/

namespace Sys2Proof.Machine

section
variable (c : Parameters) (s : State)

theorem onlyRegister_set (rd : Reg) (v : Word) {t : State} (h : t.regs = s.regs.set rd v) : OnlyRegister rd v s t := by
  refine ⟨?_, fun q hq => ?_⟩
  · rw [readReg, h, RegFile.get_set_same]
  · rw [readReg, h, RegFile.get_set_other _ _ hq, readReg]

/-- A result, whatever the signals: all that `Computes` asks for. -/
theorem computes_writeResult (rd : Reg) (v : Word) (sig : Signals) :
    Computes rd v s (writeResult Config.standard rd v { s with sig := sig }) :=
  ⟨onlyRegister_set s rd v rfl, ⟨(codeOf_withCode _ _).trans (nzpCode_eq_signCode v), upper_withCode _ _⟩, rfl, fun _ => rfl, rfl⟩

/-- A comparison, whatever the signals: all that `Compares` asks for. -/
theorem compares_compareThen (a b : Int) (sig : Signals) :
    Compares (a - b) s (compareThen Config.standard a b { s with sig := sig }) :=
  ⟨fun _ => rfl, ⟨(codeOf_withCode _ _).trans (nzpCode_compareValue_eq_signCode a b), upper_withCode _ _⟩, rfl, fun _ => rfl, rfl⟩

end

/-! ### Arithmetic (41_arithmetic.md R150 to R156) -/

/-- Settles O28. -/
theorem addMulSubAddiResults : Obligations.AddMulSubAddiResults := by
  intro s rd rs rt imm
  refine ⟨⟨_, _, rfl, computes_writeResult s rd _ _, BitVec.toNat_add _ _⟩,
    ⟨_, _, rfl, computes_writeResult s rd _ _, BitVec.toNat_mul _ _⟩,
    ⟨_, _, rfl, computes_writeResult s rd _ _, ?difference⟩,
    ⟨_, _, rfl, computes_writeResult s rd _ _, BitVec.toNat_add _ _⟩⟩
  case difference =>
    have bound : (readReg s rt).toNat < 65536 := (readReg s rt).isLt
    rw [BitVec.toNat_sub]
    omega

theorem divFn_toNat (a b : Word) : (Config.divFn a b).toNat = if b.toNat = 0 then 0 else a.toNat / b.toNat := by
  have bound : a.toNat / b.toNat < 65536 := (Nat.div_le_self _ _).trans_lt a.isLt
  unfold Config.divFn
  split
  next => rfl
  next => rw [BitVec.toNat_ofNat, Nat.mod_eq_of_lt bound]

theorem modFn_toNat (a b : Word) : (Config.modFn a b).toNat = if b.toNat = 0 then 0 else a.toNat % b.toNat := by
  have bound : a.toNat % b.toNat < 65536 := (Nat.mod_le _ _).trans_lt a.isLt
  unfold Config.modFn
  split
  next => rfl
  next => rw [BitVec.toNat_ofNat, Nat.mod_eq_of_lt bound]

/-- Settles O29. -/
theorem divModResults : Obligations.DivModResults := fun s rd _ _ =>
  ⟨⟨_, _, rfl, computes_writeResult s rd _ _, rfl, divFn_toNat _ _⟩,
    ⟨_, _, rfl, computes_writeResult s rd _ _, rfl, modFn_toNat _ _⟩⟩

/-- Below 0x8000 a word stands for the same integer signed and unsigned. -/
theorem toInt_of_lt {v : Word} (h : v.toNat < 0x8000) : v.toInt = v.toNat :=
  BitVec.toInt_eq_toNat_of_lt (by omega)

/-- Settles O30. -/
theorem quotientAndRemainderAgree : Obligations.QuotientAndRemainderAgree := by
  intro a b hb
  have quotient := divFn_toNat a b
  have remainder := modFn_toNat a b
  rw [if_neg hb] at quotient remainder
  rw [quotient, remainder]
  refine ⟨(Nat.div_add_mod' _ _).symm, Nat.mod_lt _ (Nat.pos_of_ne_zero hb), fun ha hb' => ?_⟩
  have smallQuotient : (Config.divFn a b).toNat < 0x8000 := quotient ▸ (Nat.div_le_self _ _).trans_lt ha
  have smallRemainder : (Config.modFn a b).toNat < 0x8000 := remainder ▸ (Nat.mod_le _ _).trans_lt ha
  rw [toInt_of_lt smallQuotient, toInt_of_lt smallRemainder, toInt_of_lt ha, toInt_of_lt hb', quotient, remainder]
  exact ⟨rfl, rfl⟩

/-! ### Comparisons (42_compare.md R160 to R164) -/

/-- Settles O31. -/
theorem compareResults : Obligations.CompareResults := fun s _ _ _ =>
  ⟨⟨_, rfl, compares_compareThen s _ _ _⟩, ⟨_, rfl, compares_compareThen s _ _ _⟩, ⟨_, rfl, compares_compareThen s _ _ _⟩,
    ⟨_, rfl, compares_compareThen s _ _ _⟩⟩

/-! ### Logical (43_logical.md R171 to R175) -/

/-- Settles O32. -/
theorem logicalResults : Obligations.LogicalResults := by
  intro s rd rs rt imm
  refine ⟨⟨_, _, rfl, computes_writeResult s rd _ _, fun _ => BitVec.getLsbD_and⟩,
    ⟨_, _, rfl, computes_writeResult s rd _ _, BitVec.toNat_not⟩,
    ⟨_, _, rfl, computes_writeResult s rd _ _, fun _ => BitVec.getLsbD_or⟩,
    ⟨_, _, rfl, computes_writeResult s rd _ _, fun _ => BitVec.getLsbD_xor⟩,
    ⟨_, _, rfl, computes_writeResult s rd _ _, fun _ => BitVec.getLsbD_and⟩⟩

/-! ### Shifts (46_shift_mod.md R201 to R203) -/

/-- Settles O33. -/
theorem shiftResults : Obligations.ShiftResults := by
  intro s rd rs amt
  refine ⟨⟨_, _, rfl, computes_writeResult s rd _ _, ?left⟩, ⟨_, _, rfl, computes_writeResult s rd _ _, ?arithmetic⟩,
    ⟨_, _, rfl, computes_writeResult s rd _ _, ?right⟩⟩
  case left => rw [BitVec.toNat_shiftLeft, Nat.shiftLeft_eq]
  case arithmetic =>
    rw [BitVec.toInt_sshiftRight, Int.shiftRight_eq_div_pow]
    norm_cast
  case right => rw [BitVec.toNat_ushiftRight, Nat.shiftRight_eq_div_pow]

/-! ### Constants (48_const.md R221 to R223) -/

theorem replaceHighByte_toNat (imm : BitVec 8) (old : Word) :
    (replaceHighByte imm old).toNat = imm.toNat * 256 + old.toNat % 256 := by
  have low : old.toNat &&& 0xFF = old.toNat % 2 ^ 8 := Nat.and_two_pow_sub_one_eq_mod old.toNat 8
  have high : (zext 8 imm <<< 8).toNat = 2 ^ 8 * imm.toNat := by
    have bound : imm.toNat < 256 := imm.isLt
    simp only [zext, BitVec.toNat_shiftLeft, BitVec.toNat_setWidth, Nat.shiftLeft_eq]
    omega
  calc (replaceHighByte imm old).toNat
      = (2 ^ 8 * imm.toNat) ||| (old.toNat % 2 ^ 8) := by
        rw [replaceHighByte, BitVec.toNat_or, BitVec.toNat_and, high, ← low, Nat.or_comm]
        rfl
    _ = 2 ^ 8 * imm.toNat + old.toNat % 2 ^ 8 := (Nat.two_pow_add_eq_or_of_lt (Nat.mod_lt _ (by decide)) _).symm
    _ = imm.toNat * 256 + old.toNat % 256 := by omega

/-- Settles O34. -/
theorem constHiconstResults : Obligations.ConstHiconstResults := fun s rd _ _ =>
  ⟨⟨_, rfl, computes_writeResult s rd _ s.sig⟩, ⟨_, _, rfl, computes_writeResult s rd _ s.sig, replaceHighByte_toNat _ _⟩⟩

/-- The high byte of `k` over a word with its low byte is `k`. -/
theorem replaceHighByte_of_low_eq {k old : Word} (h : old.setWidth 8 = k.setWidth 8) :
    replaceHighByte (k.extractLsb' 8 8) old = k := by
  have bound : k.toNat < 65536 := k.isLt
  have low : old.toNat % 256 = k.toNat % 256 := congrArg BitVec.toNat h
  have high : (k.extractLsb' 8 8).toNat = k.toNat / 256 % 256 := by
    rw [BitVec.extractLsb'_toNat, Nat.shiftRight_eq_div_pow]
  apply BitVec.eq_of_toNat_eq
  rw [replaceHighByte_toNat, low, high]
  omega

theorem low_sext (f : BitVec 9) : (sext 9 f).setWidth 8 = f.setWidth 8 := by
  ext i hi
  have inField : i < 9 := by omega
  have inWord : i < 16 := by omega
  simp [sext_eq_signExtend, BitVec.getLsbD_eq_getElem, BitVec.getElem_signExtend, inField, inWord]

theorem OnlyRegister.trans {rd : Reg} {v w : Word} {s t u : State} (h : OnlyRegister rd v s t) (h' : OnlyRegister rd w t u) :
    OnlyRegister rd w s u :=
  ⟨h'.1, fun q hq => (h'.2 q hq).trans (h.2 q hq)⟩

/-- Settles O35: HICONST keeps the low byte that CONST left, and the flags are its own. -/
theorem constThenHiconstBuildsAnyWord : Obligations.ConstThenHiconstBuildsAnyWord := by
  intro s rd k f hf
  obtain ⟨⟨t, constant, register, ⟨-, upper⟩, pc, memory, -⟩, -⟩ := constHiconstResults s rd (sext 9 f) 0
  have built : replaceHighByte (k.extractLsb' 8 8) (readReg t rd) = k :=
    replaceHighByte_of_low_eq (by rw [register.1, low_sext, hf])
  obtain ⟨register', ⟨code, upper'⟩, -, memory', -⟩ := computes_writeResult t rd k t.sig
  refine ⟨t, writeResult Config.standard rd k t, constant, ?_, register.trans register', ⟨code, upper'.trans upper⟩, ?_,
    fun a => (memory' a).trans (memory a)⟩
  · exact congrArg (fun v => Host.Outcome.next (writeResult Config.standard rd v t)) built
  · rw [writeResult_pc, pc, BitVec.add_assoc]
    rfl

end Sys2Proof.Machine

/-! ## Calls, data accesses, traps -/

namespace Sys2Proof.Machine

/-! ### JSR and JSRR (45_jump_jsr.md R192, R193) -/

section
variable (s : State)

/-- A call, whatever the signals: the link register and PC. -/
theorem call_effects (target : Word) (sig : Signals) :
    OnlyRegister .r7 (s.pc + 1) s (setPc target (link { s with sig := sig })) ∧
    (setPc target (link { s with sig := sig })).psr = s.psr ∧ SameMemory s (setPc target (link { s with sig := sig })) ∧
    (setPc target (link { s with sig := sig })).trace = s.trace ∧ (setPc target (link { s with sig := sig })).pc = target :=
  ⟨onlyRegister_set s .r7 _ rfl, rfl, fun _ => rfl, rfl, rfl⟩

end

/-- The page of an address, 0x8000 words each. -/
theorem and_0x8000_toNat (v : Word) : (v &&& 0x8000).toNat = 2 ^ 15 * (v.toNat / 32768) := by
  have bound : v.toNat < 65536 := v.isLt
  have bit : (v.toNat.testBit 15).toNat = v.toNat / 2 ^ 15 % 2 := Nat.toNat_testBit _ _
  rw [BitVec.toNat_and]
  show v.toNat &&& 2 ^ 15 = _
  rw [Nat.and_two_pow, bit]
  omega

theorem jsrTarget_standard_toNat (imm : BitVec 11) (s : State) :
    (jsrTarget Config.standard imm s).toNat = s.pc.toNat / 32768 * 32768 + imm.toNat * 16 := by
  have bound : imm.toNat < 2048 := imm.isLt
  have low : ((imm.setWidth 16 : Word) <<< 4).toNat = imm.toNat * 16 := by
    simp only [BitVec.toNat_shiftLeft, BitVec.toNat_setWidth, Nat.shiftLeft_eq]
    omega
  calc (jsrTarget Config.standard imm s).toNat
      = 2 ^ 15 * (s.pc.toNat / 32768) ||| imm.toNat * 16 := by
        rw [jsrTarget_standard, BitVec.toNat_or, and_0x8000_toNat, low]
    _ = 2 ^ 15 * (s.pc.toNat / 32768) + imm.toNat * 16 := (Nat.two_pow_add_eq_or_of_lt (by omega) _).symm
    _ = s.pc.toNat / 32768 * 32768 + imm.toNat * 16 := by omega

/-- Settles O38. -/
theorem jsrJsrrResults : Obligations.JsrJsrrResults := by
  intro s imm rs
  obtain ⟨register, psr, memory, trace, -⟩ := call_effects s (jsrTarget Config.standard imm s) s.sig
  obtain ⟨register', psr', memory', trace', -⟩ :=
    call_effects s (jsrrTarget Config.standard rs s) { s.sig with rsSel := rs.toBits }
  exact ⟨⟨_, rfl, register, psr, memory, trace, jsrTarget_standard_toNat imm s⟩,
    ⟨_, rfl, register', psr', memory', trace', jsrrTarget_standard rs s⟩⟩

/-! ### LDR and STR (47_load_store.md R210 to R212) -/

theorem effectiveAddress_eq {s : State} {rs : Reg} {imm ea : Word}
    (h : ea.toNat = ((readReg s rs).toNat + imm.toNat) % 65536) : effectiveAddress rs imm s = ea :=
  BitVec.eq_of_toNat_eq ((BitVec.toNat_add _ _).trans h.symm)

/-- Settles O39. -/
theorem loadResults : Obligations.LoadResults := by
  intro s rd rs imm ea hea
  obtain rfl := effectiveAddress_eq hea
  obtain ⟨denies, e⟩ | ⟨permitted, e⟩ := execLdr_cases s rd rs imm
  · exact ⟨fun permitted => (nomatch denies.symm.trans permitted), fun _ => e⟩
  · exact ⟨fun _ => ⟨_, e, computes_writeResult s rd _ _⟩, fun denies => (nomatch permitted.symm.trans denies)⟩

theorem onlyWord_store (s : State) (ea v : Word) (sig : Signals) :
    OnlyWord ea v s (advancePc (storeWord ea v { s with sig := sig })) :=
  ⟨loadWord_storeWord_same _ ea v, fun _ hb => loadWord_storeWord_other _ v hb⟩

/-- Settles O40. -/
theorem storeResults : Obligations.StoreResults := by
  intro s rt rs imm ea hea
  obtain rfl := effectiveAddress_eq hea
  obtain ⟨denies, e⟩ | ⟨permitted, e⟩ := execStr_cases s rt rs imm
  · exact ⟨fun permitted => (nomatch denies.symm.trans permitted), fun _ => e⟩
  · exact ⟨fun _ => ⟨_, e, onlyWord_store s _ _ _, fun _ => rfl, rfl, rfl, rfl⟩,
      fun denies => (nomatch permitted.symm.trans denies)⟩

/-! ### TRAP and RTI (49_trap_rti.md R231, R233) -/

/-- The trap table's addresses are 0x8000 to 0x80FF. -/
theorem trapTarget_toNat (imm : BitVec 8) : (Config.trapBase ||| zext 8 imm).toNat = 0x8000 + imm.toNat := by
  have bound : imm.toNat < 256 := imm.isLt
  have low : (zext 8 imm).toNat = imm.toNat := BitVec.toNat_setWidth_of_le (by decide)
  rw [BitVec.toNat_or, low]
  exact (Nat.two_pow_add_eq_or_of_lt (i := 15) (by omega) 1).symm

/-- Settles O42. -/
theorem trapEntry : Obligations.TrapEntry := by
  intro s imm
  have target : (enterTrap Config.standard imm s).pc.toNat = 0x8000 + imm.toNat := trapTarget_toNat imm
  have mode := enterTrap_currentMode s Config.standard imm
  have e := exec_effect (i := .trap imm) (s := s) rfl
  refine ⟨enterTrap Config.standard imm s, rfl, onlyRegister_set s .r7 _ rfl, ?code, mode, e.reserved_eq, target, ?fetch,
    fun _ => rfl, rfl⟩
  case code => rw [enterTrap_eq, codeOf_withMode, codeOf_withCode, nzpCode_eq_signCode]
  case fetch =>
    rw [mode, permitted_supervisor, target]
    omega

/-- Leaving supervisor mode changes no bit but the fifteenth. -/
theorem withMode_low (m : Mode) (psr : Word) : (withMode m psr).extractLsb' 0 15 = psr.extractLsb' 0 15 := by
  ext i hi
  cases m <;> interval_cases i <;> simp [withMode, Config.privMask]

/-- Settles O43. -/
theorem rtiReturn : Obligations.RtiReturn := fun s =>
  ⟨returnFromTrap s, rfl, rfl, returnFromTrap_currentMode s, withMode_low _ _, fun _ => rfl, fun _ => rfl, rfl⟩

/-! ## Other values of the parameters (00_scope.md R5) -/

/-- Settles O59. -/
theorem divModJsrJsrrUnderEveryConfiguration : Obligations.DivModJsrJsrrUnderEveryConfiguration := by
  intro c s rd rs rt imm computes links
  have result (v : Word) (sig : Signals) : computes v (writeResult c rd v { s with sig := sig }) :=
    ⟨onlyRegister_set s rd v rfl, (codeOf_withCode _ _).trans (nzpCode_eq c v), upper_withCode _ _, rfl, fun _ => rfl, rfl⟩
  have call (target : Word) (sig : Signals) : links target (setPc target (link { s with sig := sig })) :=
    ⟨onlyRegister_set s .r7 _ rfl, rfl, rfl, fun _ => rfl, rfl⟩
  refine ⟨⟨_, rfl, result _ _⟩, ⟨_, rfl, result _ _⟩, ⟨setPc (jsrTarget c imm s) (link s), rfl, ?_⟩,
    ⟨setPc (jsrrTarget c rs s) (link (selectRs rs s)), rfl, ?_⟩⟩
  · have target : jsrTarget c imm s =
        (s.pc &&& 0x8000) ||| ((if c.jsrImmSigned then imm.signExtend 16 else imm.setWidth 16) <<< 4) := by
      rw [jsrTarget, jsrOffset, sext_eq_signExtend, zext]
    exact target ▸ call _ s.sig
  · exact jsrrTarget_eq c rs s ▸ call _ _

section
variable {c : Parameters}

/-- The code of a value is the code of its sign's flag (10_state.md R31). -/
theorem nzpCode_cases (c : Parameters) (v : Word) :
    (v.toInt < 0 ∧ nzpCode c v = c.codeN) ∨ (v.toInt = 0 ∧ nzpCode c v = c.codeZ) ∨ (0 < v.toInt ∧ nzpCode c v = c.codeP) := by
  rw [nzpCode_eq]
  obtain negative | zero | positive := lt_trichotomy v.toInt 0
  · exact .inl ⟨negative, if_pos negative⟩
  · exact .inr (.inl ⟨zero, by rw [if_neg (by omega), if_pos zero]⟩)
  · exact .inr (.inr ⟨positive, by rw [if_neg (by omega), if_neg (by omega)]⟩)

/-- Whatever the order of the flags, the mask of one flag meets the code of a value exactly when the value has its sign. -/
theorem flag_meets_nzpCode (hc : c.Proper) (v : Word) :
    (c.codeN &&& nzpCode c v ≠ 0 ↔ v.toInt < 0) ∧ (c.codeZ &&& nzpCode c v ≠ 0 ↔ v.toInt = 0) ∧
    (c.codeP &&& nzpCode c v ≠ 0 ↔ 0 < v.toInt) := by
  obtain ⟨⟨n, z, p⟩, nz, np, zp⟩ := codes_disjoint hc
  have zn := BitVec.and_comm c.codeZ c.codeN ▸ nz
  have pn := BitVec.and_comm c.codeP c.codeN ▸ np
  have pz := BitVec.and_comm c.codeP c.codeZ ▸ zp
  obtain ⟨sign, code⟩ | ⟨sign, code⟩ | ⟨sign, code⟩ := nzpCode_cases c v
  · rw [code, BitVec.and_self, zn, pn]
    exact ⟨iff_of_true n sign, iff_of_false (· rfl) (by omega), iff_of_false (· rfl) (by omega)⟩
  · rw [code, BitVec.and_self, nz, pz]
    exact ⟨iff_of_false (· rfl) (by omega), iff_of_true z sign, iff_of_false (· rfl) (by omega)⟩
  · rw [code, BitVec.and_self, np, zp]
    exact ⟨iff_of_false (· rfl) (by omega), iff_of_false (· rfl) (by omega), iff_of_true p sign⟩

/-- A mask of several flags meets a code exactly when one of them does. -/
theorem union_meets_iff (a b code : BitVec 3) : (a ||| b) &&& code ≠ 0 ↔ a &&& code ≠ 0 ∨ b &&& code ≠ 0 := by
  rw [BitVec.and_or_distrib_right]
  exact (not_congr BitVec.or_eq_zero_iff).trans not_and_or

/-- A branch after `SetNZP` of a value goes by the test that its mask makes of the value's code. -/
theorem branch_after_setNzp (s : State) (v imm : Word) {mask : BitVec 3} {test : Prop} [Decidable test]
    (h : mask &&& nzpCode c v ≠ 0 ↔ test) :
    ∃ t, (.next (branchOn mask imm (setNzp c v s)) : Answer) = .next t ∧
      GoesTo (if test then s.pc + 1 + imm else s.pc + 1) (setNzp c v s) t := by
  have target : (branchOn mask imm (setNzp c v s)).pc = if test then s.pc + 1 + imm else s.pc + 1 := by
    simp only [branchOn_eq, setNzp_psr, codeOf_withCode, setNzp_pc, h]
  exact ⟨_, rfl, target ▸ branchOn_goesTo mask imm (setNzp c v s)⟩

/-- Settles O60. -/
theorem branchesFollowTheSignUnderEveryNzpOrder : Obligations.BranchesFollowTheSignUnderEveryNzpOrder := by
  intro c hc s v imm u
  obtain ⟨n, z, p⟩ := flag_meets_nzpCode hc v
  have zp : (c.codeZ ||| c.codeP) &&& nzpCode c v ≠ 0 ↔ 0 ≤ v.toInt := by rw [union_meets_iff, z, p]; omega
  have np : (c.codeN ||| c.codeP) &&& nzpCode c v ≠ 0 ↔ v.toInt ≠ 0 := by rw [union_meets_iff, n, p]; omega
  have nz : (c.codeN ||| c.codeZ) &&& nzpCode c v ≠ 0 ↔ v.toInt ≤ 0 := by rw [union_meets_iff, n, z]; omega
  have nzp : (c.codeN ||| c.codeZ ||| c.codeP) &&& nzpCode c v ≠ 0 ↔ True := by
    rw [union_meets_iff, nz, p, iff_true]
    omega
  exact ⟨branch_after_setNzp s v imm p, branch_after_setNzp s v imm z, branch_after_setNzp s v imm zp,
    branch_after_setNzp s v imm n, branch_after_setNzp s v imm np, branch_after_setNzp s v imm nz,
    branch_after_setNzp s v imm nzp⟩

end

end Sys2Proof.Machine

/-! ## The record of a cycle, and cycles that follow one another -/

namespace Sys2Proof.Machine

/-! ### NOP (44_branch.md R181) -/

/-- The words 0x0000 to 0x01FF have the Branch opcode and the sub-op that tests no flag (D1, D6). -/
theorem decode_of_lt_0x0200 {w : Word} (h : w.toNat < 0x0200) : decode w = .nop := by
  have opcode : field 12 4 w = 0 := by
    apply BitVec.eq_of_toNat_eq
    rw [toNat_field_opcode, Nat.div_eq_of_lt (by omega)]
    rfl
  have sub : field 9 3 w = 0 := by
    apply BitVec.eq_of_toNat_eq
    rw [field, BitVec.extractLsb'_toNat, Nat.shiftRight_eq_div_pow, Nat.div_eq_of_lt (by omega)]
    rfl
  rw [decode, decodeUnder, opcode]
  show decodeBranch Config.standard w = _
  rw [decodeBranch, sub]
  rfl

/-- A handler that drives no signal leaves the record of a quiet cycle (40_sequencer.md R134). -/
theorem traceRecord_of_quiet {s : State} (h : s.sig = Signals.zero) (p w : Word) : traceRecord p w s = quietRecord p w := by
  rw [traceRecord, h]
  rfl

/-- Settles O55. -/
theorem nopWordOnlyAdvancesPc : Obligations.NopWordOnlyAdvancesPc := by
  intro s hrun hfetch hword
  have handler : exec (decode (fetch s)) s = .next (advancePc s) := by
    rw [decode_of_lt_0x0200 hword]
    rfl
  exact ⟨traceRecord s.pc (fetch s) (advancePc s), step_next_of_exec_next hrun hfetch handler, rfl, rfl,
    fun quiet => traceRecord_of_quiet (s := advancePc s) quiet s.pc (fetch s)⟩

/-! ### What a cycle hands to the trace sink (40_sequencer.md R134) -/

section
variable (i : Instr) (s t : State)

/-- The register signals are those of the register the instruction writes. -/
theorem drivenSignals_register : (drivenSignals i s t).regWE = (writtenReg i).isSome ∧
    (drivenSignals i s t).rdSel = ((writtenReg i).map Reg.toBits).getD 0 := by
  cases i <;> exact ⟨rfl, rfl⟩

/-- The flag signals are those of the value the instruction sets the flags from. -/
theorem drivenSignals_flags : (drivenSignals i s t).nzpWE = (flagSource i s t).isSome ∧
    (drivenSignals i s t).nzpCode = if (flagSource i s t).isSome then codeOf t.psr else 0 := by
  cases i <;> exact ⟨rfl, rfl⟩

/-- The register value of the record: what the register written holds after the handler, or zero. -/
theorem traceRecord_regValue (h : t.sig = drivenSignals i s t) (p w : Word) :
    (traceRecord p w t).regValue = ((writtenReg i).map (readReg t)).getD 0 := by
  obtain ⟨enable, select⟩ := drivenSignals_register i s t
  rw [traceRecord, h, enable, select]
  cases writtenReg i with
  | none => rfl
  | some rd => exact congrArg (readReg t) (Reg.ofBits_toBits rd)

end

/-- Settles O47: the record is made of the signals the handler left, which are those it drives. -/
theorem traceRecordOfEachCycle : Obligations.TraceRecordOfEachCycle := by
  intro s t hrun hs h
  obtain ⟨u, hu, rfl⟩ := exec_next_of_step_next hrun h
  have driven := exec_next_sig hs hu
  obtain ⟨regWE, rd⟩ := drivenSignals_register (decode (fetch s)) s u
  obtain ⟨nzpWE, nzp⟩ := drivenSignals_flags (decode (fetch s)) s u
  refine ⟨u, traceRecord s.pc (fetch s) u, hu, ?trace, rfl, rfl, ?regWE, ?rd, ?regValue, ?nzpWE, ?nzp, ?store, ?address, ?word⟩
  case trace => rw [clearSignals_trace, emitTrace_trace, (exec_effect hu).trace_eq]
  case regWE => exact (congrArg Signals.regWE driven).trans regWE
  case rd => exact (congrArg Signals.rdSel driven).trans rd
  case regValue => exact traceRecord_regValue _ s u driven _ _
  case nzpWE => exact (congrArg Signals.nzpWE driven).trans nzpWE
  case nzp => exact (congrArg Signals.nzpCode driven).trans nzp
  case store => exact congrArg Signals.dmemWE driven
  case address => exact congrArg Signals.dmemAddr driven
  case word => exact congrArg Signals.dmemValue driven

/-! ### A TRAP and its RTI (49_trap_rti.md R234) -/

/-- Settles O44: TRAP's cycle enters at a permitted address other than the sentinel, whose word RTI is untouched. -/
theorem trapThenRtiReturnsToUser : Obligations.TrapThenRtiReturnsToUser := by
  intro s imm hrun hfetch htrap himm hrti
  obtain ⟨v, hv, register, code, mode, -, target, permitted, memory, -⟩ := trapEntry s imm
  have entry : v.pc = 0x8000 ||| imm.setWidth 16 := exec_next_pc hv
  let t := clearSignals (emitTrace s.pc (fetch s) v)
  have runs : MayRun t := by
    rw [mayRun_iff]
    intro sentinel
    have : 0x8000 + imm.toNat = 0x80FF := target.symm.trans (congrArg BitVec.toNat sentinel)
    refine himm (BitVec.eq_of_toNat_eq ?_)
    show imm.toNat = 0xFF
    omega
  have handler : exec (decode (fetch t)) t = .next (returnFromTrap t) := by
    have word : fetch t = loadWord s (0x8000 ||| imm.setWidth 16) := (memory _).trans (congrArg _ entry)
    rw [word, hrti]
    rfl
  obtain ⟨_, e, pc, user, low, registers, memory', -⟩ := rtiReturn t
  cases e
  refine ⟨t, _, step_next_of_exec_next hrun hfetch (htrap ▸ hv), step_next_of_exec_next runs permitted handler, entry, mode,
    pc.trans register.1, user, ?_, ⟨(registers _).trans register.1, fun q hq => (registers q).trans (register.2 q hq)⟩,
    fun a => (memory' a).trans (memory a)⟩
  exact (codeOf_withMode .user t.psr).trans code

/-! ### A word stored over the next instruction (20_memory.md R64, 70_reset_and_hazards.md R293) -/

/-- Settles O46: the next cycle is that of the word stored, and its fetch is permitted in the same mode. -/
theorem storedWordIsExecutedNext : Obligations.StoredWordIsExecutedNext := by
  intro s rt rs imm hrun hfetch hstr hea hnext
  have address : (s.pc + 1).toNat = ((readReg s rs).toNat + imm.toNat) % 65536 := hea ▸ BitVec.toNat_add _ _
  obtain ⟨v, hv, stored, -, psr, pc, -⟩ := (storeResults s rt rs imm (s.pc + 1) address).1 hnext
  let t := clearSignals (emitTrace s.pc (fetch s) v)
  have mode : currentMode t = currentMode s := congrArg modeOf psr
  have next : t.pc = s.pc + 1 := pc
  have allowed : FetchAllowed t := by rwa [FetchAllowed, fetchDenied, mode, next]
  have word : fetch t = readReg s rt := (congrArg (loadWord v) pc).trans stored.1
  refine ⟨t, step_next_of_exec_next hrun hfetch (hstr ▸ hv), next, allowed, word, fun notHalted => ?_⟩
  have runs : MayRun t := (mayRun_iff t).2 (next ▸ notHalted)
  rw [← word, ← next]
  exact ⟨fun _ => step_next_of_exec_next runs allowed, fun _ => step_fault_of_exec_fault runs allowed⟩

end Sys2Proof.Machine

/-! ## Several cycles (40_sequencer.md R132, R137) -/

namespace Sys2Proof.Machine

section
variable {s t : State} {f : Fault} {n : Nat}

/-! ### Iterated steps -/

theorem run_succ_of_next (h : step s = .next t) (n : Nat) : Host.Core.run core (n + 1) s = Host.Core.run core n t :=
  run_step_next core n s t h

theorem run_succ_of_fault (h : step s = .fault f) (n : Nat) : Host.Core.run core (n + 1) s = .fault f :=
  run_step_fault core n s f h

/-- Past the sentinel nothing changes (40_sequencer.md R133; log 9). -/
theorem run_of_halted (h : s.pc = 0x80FF) (n : Nat) : Host.Core.run core n s = .next s := by
  induction n with
  | zero => rfl
  | succ n ih => rw [run_succ_of_next (step_of_halted h), ih]

theorem step_trace_length (hrun : MayRun s) (h : step s = .next t) : t.trace.length = s.trace.length + 1 := by
  obtain ⟨u, hu, rfl⟩ := exec_next_of_step_next hrun h
  rw [clearSignals_trace, emitTrace_trace, List.length_append, (exec_effect hu).trace_eq, List.length_singleton]

end

/-- Settles O48: by the first cycle, which leaves its record and hands the rest on, or fails. -/
theorem traceCountsCycles : Obligations.TraceCountsCycles := by
  intro n
  induction n with
  | zero =>
    intro s _
    refine ⟨?_, nofun⟩
    rintro _ ⟨⟩
    rfl
  | succ n ih =>
    intro s hrun
    have first : MayRun s := (mayRun_iff s).2 (hrun 0 s n.succ_pos rfl)
    obtain ⟨t, h⟩ | ⟨f, h⟩ := step_completes_or_faults s
    · have count := step_trace_length first h
      obtain ⟨all, failed⟩ := ih t fun k u hk hu =>
        hrun (k + 1) u (Nat.succ_lt_succ hk) ((run_succ_of_next h k).trans hu)
      rw [run_succ_of_next h]
      refine ⟨fun u hu => by rw [all u hu, count]; omega, fun f hf => ?_⟩
      obtain ⟨k, u, hk, hu, length, fails, trace⟩ := failed f hf
      exact ⟨k + 1, u, Nat.succ_lt_succ hk, (run_succ_of_next h k).trans hu, by omega, fails, trace⟩
    · rw [run_succ_of_fault h]
      refine ⟨nofun, ?_⟩
      rintro _ ⟨⟩
      exact ⟨0, s, n.succ_pos, rfl, rfl, h,
        (congrArg State.trace (afterCycle_of_step_fault h)).trans (clearSignals_trace s)⟩

/-! ### The driving loop -/

/-- How a result of the driving loop after at most `n` cycles stands to `n` iterated steps. -/
def LoopAgrees (n : Nat) (s : State) : RunResult → Prop
  | .halted t => Host.Core.run core n s = .next t ∧ t.pc = 0x80FF ∧ step t = .next t
  | .running t => Host.Core.run core n s = .next t ∧ t.pc ≠ 0x80FF
  | .failed t f => Host.Core.run core n s = .fault f ∧ t.sig = Signals.zero ∧
      ∃ k u, k < n ∧ Host.Core.run core k s = .next u ∧ step u = .fault f ∧ t = clearSignals u
  | .refused _ _ => False

section
variable {s t : State} {n : Nat}

theorem loopAgrees_halted (h : s.pc = 0x80FF) (n : Nat) : LoopAgrees n s (.halted s) :=
  ⟨run_of_halted h n, h, step_of_halted h⟩

/-- A step in front of a loop that agrees. -/
theorem LoopAgrees.cons {r : RunResult} (h : step s = .next t) (agrees : LoopAgrees n t r) : LoopAgrees (n + 1) s r := by
  have runs (k : Nat) := run_succ_of_next h k
  cases r with
  | halted u => exact agrees.imp_left (runs n).trans
  | running u => exact agrees.imp_left (runs n).trans
  | failed u f =>
    obtain ⟨fails, quiet, k, v, hk, hv, stops, frozen⟩ := agrees
    exact ⟨(runs n).trans fails, quiet, k + 1, v, Nat.succ_lt_succ hk, (runs k).trans hv, stops, frozen⟩
  | refused u why => exact agrees

/-- Below the sentinel the loop's cycle is the step. -/
theorem step_eq_runCycle (h : halted s = false) : step s = runCycle s := if_neg (by simp [h])

theorem loopAgrees (n : Nat) (s : State) : LoopAgrees n s (runLoop n s) := by
  induction n generalizing s with
  | zero =>
    rw [runLoop_zero]
    split
    next hs => exact loopAgrees_halted ((halted_iff s).1 hs) 0
    next hs => exact ⟨rfl, mt (halted_iff s).2 hs⟩
  | succ n ih =>
    rw [runLoop_succ]
    split
    next hs => exact loopAgrees_halted ((halted_iff s).1 hs) (n + 1)
    next hs =>
      rw [← step_eq_runCycle (by simpa using hs)]
      obtain ⟨t, h⟩ | ⟨f, h⟩ := step_completes_or_faults s
      · rw [h]
        exact (ih t).cons h
      · rw [h]
        exact ⟨run_succ_of_fault h n, rfl, 0, s, n.succ_pos, rfl, h, rfl⟩

end

/-- Settles O49, by induction on the number of cycles. -/
theorem drivingLoopAgreesWithSteps : Obligations.DrivingLoopAgreesWithSteps := loopAgrees

/-! ### A machine with nothing loaded (60_exceptions.md R262) -/

/-- The records of the NOPs at 0x8200 and the `k - 1` addresses after it. -/
def idleRecords (k : Nat) : List TraceRecord := (List.range k).map fun j => quietRecord (BitVec.ofNat 16 (0x8200 + j)) 0x0000

theorem idleRecords_succ (k : Nat) :
    idleRecords (k + 1) = idleRecords k ++ [quietRecord (BitVec.ofNat 16 (0x8200 + k)) 0x0000] := by
  rw [idleRecords, List.range_succ, List.map_append, idleRecords]
  rfl

/-- The machine left at reset after `k` cycles of the word 0x0000. -/
def idling (k : Nat) : State := { State.reset with pc := BitVec.ofNat 16 (0x8200 + k), trace := idleRecords k }

theorem idling_zero : idling 0 = State.reset := rfl
theorem idling_pc (k : Nat) : (idling k).pc = BitVec.ofNat 16 (0x8200 + k) := rfl
theorem idling_psr (k : Nat) : (idling k).psr = 0x8002 := rfl
theorem idling_regs (k : Nat) : (idling k).regs = State.reset.regs := rfl
theorem idling_trace (k : Nat) : (idling k).trace = idleRecords k := rfl
theorem idling_currentMode (k : Nat) : currentMode (idling k) = .supervisor := State.reset_currentMode
theorem fetch_idling (k : Nat) : fetch (idling k) = 0x0000 := rfl

/-- Each cycle from 0x8200 to 0xFFFF is a NOP's. -/
theorem step_idling {k : Nat} (hk : k < 32256) : step (idling k) = .next (idling (k + 1)) := by
  have address : (idling k).pc.toNat = 0x8200 + k := by
    rw [idling_pc, BitVec.toNat_ofNat]
    omega
  have runs : MayRun (idling k) := by
    rw [mayRun_iff]
    intro sentinel
    have : 0x8200 + k = 0x80FF := address.symm.trans (congrArg BitVec.toNat sentinel)
    omega
  have allowed : FetchAllowed (idling k) := by
    rw [FetchAllowed, fetchDenied, idling_currentMode, permitted_supervisor, address]
    omega
  have word : (fetch (idling k)).toNat < 0x0200 := by
    rw [fetch_idling]
    decide
  obtain ⟨r, e, -, -, quiet⟩ := nopWordOnlyAdvancesPc (idling k) runs allowed word
  have pc : (idling k).pc + 1 = BitVec.ofNat 16 (0x8200 + (k + 1)) := (BitVec.ofNat_add (0x8200 + k) 1).symm
  rw [e, quiet rfl, pc, fetch_idling, idling_pc, idling_trace, ← idleRecords_succ]
  rfl

theorem run_idling {n : Nat} (k : Nat) (h : k + n ≤ 32256) : Host.Core.run core n (idling k) = .next (idling (k + n)) := by
  induction n generalizing k with
  | zero => rfl
  | succ n ih =>
    have next : k + 1 + n = k + (n + 1) := by omega
    rw [run_succ_of_next (step_idling (by omega)), ih (k + 1) (by omega), next]

/-- Settles O50: after the cycle at 0xFFFF comes 0x0000, which supervisor mode may not fetch. -/
theorem emptyMachineRunsNopsThenFails : Obligations.EmptyMachineRunsNopsThenFails := by
  have ran := run_idling (n := 32256) 0 (by omega)
  rw [idling_zero, Nat.zero_add] at ran
  have pc : (idling 32256).pc = 0x0000 := by
    rw [idling_pc]
    decide
  have runs : MayRun (idling 32256) := by
    rw [mayRun_iff, pc]
    decide
  have denies : fetchDenied (idling 32256) = true := by
    rw [fetchDenied, idling_currentMode, denied_supervisor, pc]
    decide
  exact ⟨decode_of_lt_0x0200 (by decide), idling 32256, ran, pc, idling_psr _, idling_regs _, idling_trace _,
    pc ▸ step_of_fetchDenied runs denies⟩

end Sys2Proof.Machine

/-! ## The loader (20_memory.md R52, 70_reset_and_hazards.md R285) -/

namespace Sys2Proof.Machine

/-! ### One segment -/

theorem loadWords_cons {a : Nat} {w : Word} {ws : List Word} {m m' : Memory} :
    loadWords a (w :: ws) m = some m' ↔ a < 65536 ∧ loadWords (a + 1) ws (m.write a w) = some m' := by
  rw [loadWords, Config.memWords]
  split
  next inside => simp [inside]
  next outside => simp [outside]

/-- Words load when the last stands inside the address space; none always do. -/
theorem loadWords_isSome_iff (ws : List Word) (a : Nat) (m : Memory) :
    (loadWords a ws m).isSome = true ↔ (ws ≠ [] → a + ws.length ≤ 65536) := by
  induction ws generalizing a m with
  | nil => simp [loadWords]
  | cons w ws ih =>
    simp only [Option.isSome_iff_exists, loadWords_cons, exists_and_left] at ih ⊢
    have nonempty : ws ≠ [] ↔ 0 < ws.length := List.length_pos_iff.symm
    rw [ih, nonempty, forall_prop_of_true (List.cons_ne_nil w ws), List.length_cons]
    omega

/-- Every word outside the segment is as before. -/
theorem read_loadWords_outside {ws : List Word} {a : Nat} {m m' : Memory} (h : loadWords a ws m = some m') {b : Nat}
    (hb : b < a ∨ a + ws.length ≤ b) : m'.read b = m.read b := by
  induction ws generalizing a m with
  | nil =>
    cases h
    rfl
  | cons w ws ih =>
    rw [List.length_cons] at hb
    rw [ih (loadWords_cons.1 h).2 (by omega), Memory.read_write_other _ _ _ _ (by omega)]

/-- The words of the segment stand at consecutive addresses. -/
theorem read_loadWords_inside {ws : List Word} {a : Nat} {m m' : Memory} (h : loadWords a ws m = some m') {k : Nat} {w : Word}
    (hk : ws[k]? = some w) : m'.read (a + k) = w := by
  induction ws generalizing a k m with
  | nil => cases hk
  | cons v ws ih =>
    have rest := (loadWords_cons.1 h).2
    cases k with
    | zero =>
      cases hk
      rw [Nat.add_zero, read_loadWords_outside rest (by omega), Memory.read_write_same]
    | succ k =>
      have address : a + (k + 1) = a + 1 + k := by omega
      rw [address, ih rest hk]

/-- Settles O51, by the words inside the segment and those outside it. -/
theorem loaderPlacesConsecutiveWords : Obligations.LoaderPlacesConsecutiveWords := by
  intro ws a m hws
  refine ⟨by rw [loadWords_isSome_iff, forall_prop_of_true hws], fun m' h => ⟨fun k hk => ?_, fun _ => read_loadWords_outside h⟩⟩
  exact read_loadWords_inside h (List.getElem?_eq_getElem hk)

/-! ### Several segments -/

theorem loadSegments_cons {g : Segment} {gs : List Segment} {m m' : Memory} :
    loadSegments (g :: gs) m = some m' ↔ ∃ m1, loadWords g.start g.words m = some m1 ∧ loadSegments gs m1 = some m' :=
  Option.bind_eq_some_iff

theorem loadSegments_isSome_iff (image : List Segment) (m : Memory) :
    (loadSegments image m).isSome = true ↔ ∀ g ∈ image, g.words ≠ [] → g.start + g.words.length ≤ 65536 := by
  induction image generalizing m with
  | nil => simp [loadSegments]
  | cons g gs ih =>
    rw [List.forall_mem_cons, ← loadWords_isSome_iff g.words g.start m, loadSegments]
    cases loadWords g.start g.words m with
    | none => simp
    | some m1 => simp [ih]

/-- A word that no segment covers is as before. -/
theorem read_loadSegments_of_not_covers {image : List Segment} {m m' : Memory} (h : loadSegments image m = some m') {a : Nat}
    (ha : ∀ g ∈ image, ¬ Covers g a) : m'.read a = m.read a := by
  induction image generalizing m with
  | nil =>
    cases h
    rfl
  | cons g gs ih =>
    obtain ⟨m1, first, rest⟩ := loadSegments_cons.1 h
    obtain ⟨notFirst, notRest⟩ := List.forall_mem_cons.1 ha
    rw [ih rest notRest, read_loadWords_outside first (by rw [Covers] at notFirst; omega)]

/-- The last segment that covers an address decides its word. -/
theorem read_loadSegments_of_last {earlier later : List Segment} {g : Segment} {m m' : Memory}
    (h : loadSegments (earlier ++ g :: later) m = some m') {k : Nat} {w : Word} (hk : g.words[k]? = some w)
    (hlater : ∀ g' ∈ later, ¬ Covers g' (g.start + k)) : m'.read (g.start + k) = w := by
  induction earlier generalizing m with
  | nil =>
    obtain ⟨m1, first, rest⟩ := loadSegments_cons.1 h
    rw [read_loadSegments_of_not_covers rest hlater, read_loadWords_inside first hk]
  | cons _ earlier ih =>
    obtain ⟨m1, -, rest⟩ := loadSegments_cons.1 h
    exact ih rest

theorem imageIn_of_loadSegments {image : List Segment} {m m' : Memory} (h : loadSegments image m = some m') :
    ImageIn image m m' := by
  refine ⟨?_, fun _ => read_loadSegments_of_not_covers h⟩
  rintro earlier g later k w rfl hk hlater
  exact read_loadSegments_of_last h hk hlater

/-- Settles O53, by the last segment that covers an address. -/
theorem laterSegmentsOverwriteEarlier : Obligations.LaterSegmentsOverwriteEarlier := fun image m =>
  ⟨loadSegments_isSome_iff image m, fun _ => imageIn_of_loadSegments⟩

/-! ### The start state -/

theorem startState_eq_some {image : List Segment} {s : State} :
    startState image = some s ↔ ∃ m, loadSegments image [] = some m ∧ { State.reset with mem := m } = s :=
  Option.map_eq_some_iff

/-- Settles O52: memory alone differs from the reset state's, and the loader keeps its canonical form. -/
theorem loadedStartStateIsResetButForMemory : Obligations.LoadedStartStateIsResetButForMemory := by
  intro image s h
  obtain ⟨m, loaded, rfl⟩ := startState_eq_some.1 h
  have reset := resetMeetsInvariant
  exact ⟨rfl, rfl, State.reset_readReg, rfl, rfl, imageIn_of_loadSegments loaded,
    fun a ha => read_loadSegments_of_not_covers loaded ha,
    ⟨reset.reservedZero, reset.oneFlag, reset.signalsZero, loadSegments_wf image [] m Memory.wf_nil loaded⟩⟩

end Sys2Proof.Machine
